-- ==== Sys2Proof/Word.lean ====
section
/-! DEFINITION. The word types of the engine (spec/00_scope.md section 7.1).

A byte is 8 bits, a word is 32 bits, a byte string of fixed length is a vector of bytes with byte 0 first. -/

namespace Sys2Proof

/-- A byte: 8 bits (00_scope.md section 7.1). -/
abbrev Byte := BitVec 8

/-- A word: 32 bits, unsigned; all word arithmetic is modulo `2^32` (00_scope.md section 7.1, rule R89). -/
abbrev Word := BitVec 32

/-- A byte string of length `n`; element 0 is the first byte (00_scope.md section 7.1). -/
abbrev Bytes (n : Nat) := Vector Byte n

/-- A register file of `n` words. -/
abbrev Words (n : Nat) := Vector Word n

/-- A Block: "exactly 4096 bytes of opaque input" (rule R7 `BLOCK_BYTES`). The engine never holds one whole (rule R13). -/
abbrev Block := Bytes 4096

end Sys2Proof
end

