-- ==== Sys2Proof/Syntax.lean ====
section
/-! DEFINITION. The command set (spec/30_encoding.md rule R50): one constructor per row of spec/opcode_table.json.

A command word has no operand but `TAG`, which is any 16-bit value (rules R49, R51); the data of a job comes on the
data-in stream. -/

namespace Sys2Proof

/-- The four commands of command set version 1 (rules R3, R50). The argument is the field `TAG` (rule R51). -/
inductive Instr where
  /-- `HASH256`, opcode 0x01 (rule R97): the 256-bit digest of one Block. -/
  | hash256 (tag : BitVec 16)
  /-- `HASH128`, opcode 0x02 (rule R98): the first 16 bytes of that digest. -/
  | hash128 (tag : BitVec 16)
  /-- `FOLD`, opcode 0x03 (rule R70): the 64-byte XOR-fold of one Block. -/
  | fold (tag : BitVec 16)
  /-- `SM3CF`, opcode 0x04 (rule R91): one SM3 compression of one message block, from the IV. -/
  | sm3cf (tag : BitVec 16)
  deriving DecidableEq, Repr

/-- The command's `TAG` field (rule R51). -/
def Instr.tag : Instr → BitVec 16
  | .hash256 t => t
  | .hash128 t => t
  | .fold t => t
  | .sm3cf t => t

end Sys2Proof
end

