-- ==== Sys2Proof/WellFormed.lean ====
section
/-! DEFINITION. The legal opcodes and the well-formedness of the fields of command format `C`
(spec/30_encoding.md rules R49, R50, R52, R53).

An `Instr` cannot carry an illegal field: its constructors are the four legal opcodes and its tag has 16 bits. What can
be ill formed is a triple of fields of format `C`, and the two checks on it are those of `Legal` in rule R53. -/

namespace Sys2Proof

/-- The legal opcodes, by name (rule R50). -/
inductive Op where
  /-- 0x01 -/
  | hash256
  /-- 0x02 -/
  | hash128
  /-- 0x03 -/
  | fold
  /-- 0x04 -/
  | sm3cf
  deriving DecidableEq, Repr

/-- The opcode's value in the field `OPC` (rule R50). -/
def Op.code : Op → BitVec 8
  | .hash256 => 0x01#8
  | .hash128 => 0x02#8
  | .fold => 0x03#8
  | .sm3cf => 0x04#8

/-- The legal opcode with this value, if there is one: every other value of `OPC` is illegal (rule R50). -/
def Op.ofCode (c : BitVec 8) : Option Op :=
  if c = 0x01#8 then some .hash256
  else if c = 0x02#8 then some .hash128
  else if c = 0x03#8 then some .fold
  else if c = 0x04#8 then some .sm3cf
  else none

/-- The fields of the one command format, `C` (rule R49). -/
structure FormatC where
  /-- bits 31:24, reserved; must be 0 (rule R52) -/
  rsv : BitVec 8
  /-- bits 23:8 (rule R51) -/
  tag : BitVec 16
  /-- bits 7:0 (rule R50) -/
  opc : BitVec 8
  deriving DecidableEq, Repr

/-- `RSV` must be 0x00 (rule R52). -/
def FormatC.rsvOk (f : FormatC) : Bool := f.rsv == 0x00#8

/-- `OPC` is one of the four legal values (rule R50). -/
def FormatC.opcOk (f : FormatC) : Bool := (Op.ofCode f.opc).isSome

/-- `Legal` of rule R53, on the fields. -/
def FormatC.wf (f : FormatC) : Bool := f.rsvOk && f.opcOk

/-- The command's opcode (rule R50). -/
def Instr.op : Instr → Op
  | .hash256 _ => .hash256
  | .hash128 _ => .hash128
  | .fold _ => .fold
  | .sm3cf _ => .sm3cf

/-- The command with this opcode and this tag. -/
def Op.instr : Op → BitVec 16 → Instr
  | .hash256, t => .hash256 t
  | .hash128, t => .hash128 t
  | .fold, t => .fold t
  | .sm3cf, t => .sm3cf t

/-- The fields of the command's word (rules R49, R50, R52). -/
def Instr.fields (i : Instr) : FormatC := { rsv := 0x00#8, tag := i.tag, opc := i.op.code }

/-- A command is well formed when its fields are legal (rule R53). -/
def Instr.wf (i : Instr) : Bool := i.fields.wf

end Sys2Proof
end

