-- ==== Sys2Proof/Decode.lean ====
section
/-! DEFINITION. The decoder and the encoder of command words (spec/30_encoding.md rules R49 to R53, R57, R59, R64).

A command word is 32 bits on the port `cmd_data`; it is one transfer and has no byte order. -/

namespace Sys2Proof

/-- The decoder's two answers (rule R53): the word is exactly one of the four commands, or it is illegal. Rule R57 makes
no distinction between reserved and illegal. -/
inductive Decoded where
  /-- The word is this command. -/
  | command (i : Instr)
  /-- `Illegal`: a word whose `OPC` is none of the four, or whose `RSV` is not zero (rules R53, R57). -/
  | illegal
  deriving DecidableEq, Repr

/-- The fields of a word in format `C` (rule R49): `RSV` = bits 31:24, `TAG` = bits 23:8, `OPC` = bits 7:0. -/
def FormatC.ofWord (c : Word) : FormatC :=
  { rsv := c.extractLsb' 24 8, tag := c.extractLsb' 8 16, opc := c.extractLsb' 0 8 }

/-- The word with these fields (rule R49). -/
def FormatC.toWord (f : FormatC) : Word := f.rsv ++ f.tag ++ f.opc

/-- `Legal(c)` of rule R53. -/
def legal (c : Word) : Bool := (FormatC.ofWord c).wf

/-- `Decode(c)` of rule R53: total on the 32-bit words. -/
def decode (c : Word) : Decoded :=
  if (FormatC.ofWord c).rsvOk then
    match Op.ofCode (FormatC.ofWord c).opc with
    | some op => .command (op.instr (FormatC.ofWord c).tag)
    | none => .illegal
  else .illegal

/-- The word of a command with this opcode and this tag (rules R49, R60): `RSV` zero, `TAG`, `OPC`. -/
def commandWord (op : Op) (tag : BitVec 16) : Word :=
  FormatC.toWord { rsv := 0x00#8, tag := tag, opc := op.code }

/-- The word of a command (rule R49). -/
def encode (i : Instr) : Word := i.fields.toWord

/-- The decoder on a word whose bits the opcode table numbers: `nbits` bits, the bits above them 0. A command is one
32-bit word (rule R59), so the bits are taken as they stand. -/
def decodeTableWord (nbits w : Nat) : Option Instr :=
  match decode (BitVec.ofNat 32 (w % 2 ^ nbits)) with
  | .command i => some i
  | .illegal => none

end Sys2Proof
end

