-- ==== Sys2Proof/Config.lean ====
section
/-! DEFINITION. What an implementation fixes (spec/00_scope.md rules R7 to R9, spec/10_state.md rule R26).

The open parameters `PAD_MODE` and `OUT_DEPTH` are the fields of one engine's configuration record. The third open
parameter, `NUM_ENGINES`, belongs to the host and not to the engine (rule R110, decision D17): it is the field of a record
of the host's own, and a cluster of `Machine/Cluster.lean` has that many engines. -/

namespace Sys2Proof

/-- `PAD_MODE`, the open parameter of rule R9: how many SM3 compressions a digest takes (conflict C1, rule R95). -/
inductive PadMode where
  /-- `PAD_MODE = 0`, the default: one compression, no pad bytes processed. -/
  | pad0
  /-- `PAD_MODE = 1`: a second compression over `PADBLK`. -/
  | pad1
  deriving DecidableEq, Repr

/-- The configuration record of rule R26: fixed when the hardware is built, changed by no step, no command, no reset. -/
structure Config where
  /-- `PAD_MODE` (rules R9, R95). -/
  padMode : PadMode
  /-- `OUT_DEPTH`, the capacity of the result queue, at least 1 (rules R9, R22). -/
  outDepth : Nat
  deriving DecidableEq, Repr

/-- The range of the parameters (rule R9): `OUT_DEPTH` is at least 1. -/
def Config.wf (c : Config) : Bool := decide (1 ≤ c.outDepth)

/-- The defaults of rule R9: `PAD_MODE = 0`, `OUT_DEPTH = 2`. -/
def Config.default : Config := { padMode := .pad0, outDepth := 2 }

/-- What the host fixes (rules R9, R110): how many engines it uses side by side. -/
structure HostConfig where
  /-- `NUM_ENGINES`, at least 1 (rule R9) -/
  numEngines : Nat
  deriving DecidableEq, Repr

/-- The range of `NUM_ENGINES` (rule R9): at least 1. -/
def HostConfig.wf (h : HostConfig) : Bool := decide (1 ≤ h.numEngines)

/-- The default of rule R9: `NUM_ENGINES = 1`. -/
def HostConfig.default : HostConfig := { numEngines := 1 }

namespace Config

/-- `LANES` (rule R7): the lanes of a Block. -/
def lanes : Nat := 64

/-- `ROUNDS` (rule R7): the rounds of one compression. -/
def rounds : Nat := 64

/-- `W_WORDS` (rule R7): the words of an expanded message block. -/
def wWords : Nat := 68

end Config

end Sys2Proof
end

