-- ==== Sys2Proof/Machine/State.lean ====
section
/-! DEFINITION. The state of the machine: everything spec/10_state.md rule R13 gives one engine, each port by which the
host drives it (spec/20_memory.md rule R32), and the plain data that says which move happens next.

No field is a function. There is no memory and no address space (rules R31, R43), no program counter (rule R17). -/

namespace Sys2Proof.Machine

/-- A data beat `(data, last)` (rules R35, R55): byte `k` is `d[k]`. -/
structure Beat where
  data : Bytes 64
  last : Bool
  deriving DecidableEq, Repr

/-- A result record `(tag, len, data)` (rules R22, R38, R56). -/
structure Record where
  tag : BitVec 16
  /-- the length in bytes: 16, 32 or 64, on the 7 bits of `out_len` -/
  len : BitVec 7
  data : Bytes 64
  deriving DecidableEq, Repr

/-- The F slot, the fold stage's job (rule R14). -/
structure FSlot where
  busy : Bool
  /-- `cmd[7:0]` -/
  op : BitVec 8
  /-- `cmd[23:8]` -/
  tag : BitVec 16
  /-- the whole command word -/
  cmd : Word
  /-- beats of the job taken so far, 0 to `NB(op)` -/
  cnt : BitVec 7
  deriving DecidableEq, Repr

/-- The S slot, the SM3 stage's job (rule R16). -/
structure SSlot where
  busy : Bool
  op : BitVec 8
  tag : BitVec 16
  /-- the copy of `ACC` taken at the hand-over -/
  blk : Bytes 64
  deriving DecidableEq, Repr

/-- "The eight working registers" `A` to `H` of the round function (rule R18). -/
structure Regs where
  a : Word
  b : Word
  c : Word
  d : Word
  e : Word
  f : Word
  g : Word
  h : Word
  deriving DecidableEq, Repr

/-- The hidden registers of the SM3 stage (rules R18 to R21): internal to the retire step. -/
structure Sm3Core where
  /-- `V[0..7]`, the chaining value -/
  v : Words 8
  /-- `A` to `H` -/
  regs : Regs
  /-- `W[0..67]`, the expanded message of the current compression -/
  w : Words 68
  /-- `j`, the round counter, 0 to 64 -/
  j : BitVec 7
  /-- `p`, the pass counter: compressions of the job already finished, 0 to 2 -/
  p : BitVec 2
  deriving DecidableEq, Repr

/-- The steps that are the engine's own or a transfer (rules R99 to R103). `Reset` (rule R104) is what every one of them
is while the host drives `rst = 1` (rules R126, R135). -/
inductive EngineStep where
  | acceptCmd
  | acceptBeat
  | advance
  | retire
  | deliver
  deriving DecidableEq, Repr

/-- The host's moves (rule R106), each setting what the host drives on one port. The streams are given whole: their heads
are the items offered now, the rest is what the host will offer next. -/
inductive HostMove where
  /-- drive the port `rst` (rule R135) -/
  | driveRst (level : Bool)
  /-- what is offered on the command stream becomes `words` (rules R33, R34, R141) -/
  | driveCmd (words : List Word)
  /-- what is offered on the data-in stream becomes `beats` (rules R33, R36, R141) -/
  | driveIn (beats : List Beat)
  /-- drive the port `out_ready` (rules R32, R103) -/
  | driveOutReady (level : Bool)
  deriving DecidableEq, Repr

/-- One move of the run: a step of the engine or a move of the host. -/
inductive Move where
  | engine (e : EngineStep)
  | host (m : HostMove)
  deriving DecidableEq, Repr

/-- The machine's state. -/
structure State where
  /-- `PAD_MODE` and `OUT_DEPTH` (rule R26); no step and no reset changes it (notes/assumptions/1.md) -/
  cfg : Config
  /-- the F slot (rule R14) -/
  fSlot : FSlot
  /-- `ACC[0..63]`, the fold accumulator (rule R15) -/
  acc : Bytes 64
  /-- the S slot (rule R16) -/
  sSlot : SSlot
  /-- `V`, `A`..`H`, `W`, `j`, `p` (rules R18 to R21) -/
  sm3 : Sm3Core
  /-- `OQ`, the result queue, oldest record first (rule R22) -/
  oq : List Record
  /-- `STATUS.FAULT` (rule R23) -/
  fault : Bool
  /-- `STATUS.CAUSE` (rules R23, R120) -/
  cause : BitVec 4
  /-- `FINFO` (rule R24) -/
  finfo : BitVec 32
  /-- the port `rst` (rules R32, R135) -/
  rst : Bool
  /-- the command stream: the words the host offers, the head first (`cmd_valid`, `cmd_data`; rules R32 to R34) -/
  cmd : List Word
  /-- the data-in stream: the beats the host offers, the head first (`in_valid`, `in_data`, `in_last`; rules R32 to R37) -/
  beats : List Beat
  /-- the port `out_ready` (rule R32) -/
  outReady : Bool
  /-- the records the host has taken, the first taken first (rules R38, R103) -/
  delivered : List Record
  /-- the moves that happen next, the first first; when it is empty the machine takes the first enabled step
  (the model's own field, notes/assumptions/2.md) -/
  agenda : List Move
  deriving DecidableEq, Repr

/-- Why the model stops with a fault. The engine's own two faults, ILLCMD and FRAME, are not here: they are states the
engine goes on from (rules R124, R125), so they are next states. -/
inductive Fault where
  /-- Raised by the retire step when the busy S slot holds an opcode that is none of the four: rule R107 defines `Result`
  for a legal opcode only. No state that meets the invariant of rule R30 (b) raises it. Safe. -/
  | slotOpcode
  deriving DecidableEq, Repr

/-- Why the model refuses an instruction. No meaning of this model answers with it. -/
inductive Refusal where
  /-- The instruction has no meaning in this model yet; raised by an arm of `exec` alone. Safe. -/
  | notModelled (mnemonic : String)
  deriving DecidableEq, Repr

/-- Byte string of zeros, `0^n` (00_scope.md section 7.1). -/
def zeroBytes (n : Nat) : Bytes n := Vector.replicate n 0x00#8

/-- The F slot after reset: free (rule R27). The other fields are unspecified there; zero is the model's choice
(notes/assumptions/3.md). -/
def FSlot.reset : FSlot := { busy := false, op := 0, tag := 0, cmd := 0, cnt := 0 }

/-- The S slot after reset: free (rule R27). The other fields are unspecified there; zero is the model's choice
(notes/assumptions/3.md). -/
def SSlot.reset : SSlot := { busy := false, op := 0, tag := 0, blk := zeroBytes 64 }

/-- The hidden registers after reset: unspecified (rule R27); zero is the model's choice (notes/assumptions/3.md). -/
def Sm3Core.reset : Sm3Core :=
  { v := Vector.replicate 8 0
    regs := { a := 0, b := 0, c := 0, d := 0, e := 0, f := 0, g := 0, h := 0 }
    w := Vector.replicate 68 0
    j := 0
    p := 0 }

/-- The machine right after reset (rules R27, R136, R138): both slots free, the queue empty, no fault recorded, `rst`
low again. The configuration has the defaults of rule R9; the host offers nothing and has taken nothing. -/
def State.reset : State :=
  { cfg := Config.default
    fSlot := FSlot.reset
    acc := zeroBytes 64
    sSlot := SSlot.reset
    sm3 := Sm3Core.reset
    oq := []
    fault := false
    cause := 0
    finfo := 0
    rst := false
    cmd := []
    beats := []
    outReady := false
    delivered := []
    agenda := [] }

end Sys2Proof.Machine
end

