-- ==== Sys2Proof/Machine/Operands.lean ====
section
/-! DEFINITION. Byte strings, byte orders, beats and records: every form in which data enters, moves through and leaves
the engine (spec/00_scope.md section 7, spec/20_memory.md rules R35 to R40, spec/30_encoding.md rules R54 to R56). -/

namespace Sys2Proof.Machine

/-- Byte `i` of a byte string; past its end, `0x00`, the fill of rule R56. -/
def byteAt {n : Nat} (s : Bytes n) (i : Nat) : Byte := if h : i < n then s[i] else 0x00#8

/-- Register `i` of a file of `n` words, `x[i]` (00_scope.md section 7.3). No rule reads past the end of a file. -/
def wordAt {n : Nat} (x : Words n) (i : Nat) : Word := if h : i < n then x[i] else 0

/-- `bytes(s, a, b)`: bytes `a` to `b-1` (00_scope.md section 7.1). -/
def bytesOf {n : Nat} (s : Bytes n) (a b : Nat) : Bytes (b - a) := Vector.ofFn fun i => byteAt s (a + i.val)

/-- Bitwise exclusive or of two byte strings, byte by byte. -/
def xorBytes {n : Nat} (x y : Bytes n) : Bytes n := Vector.ofFn fun k => x[k] ^^^ y[k]

/-- A result followed by bytes `0x00` up to 64 bytes (rules R38, R56). -/
def padTo64 {n : Nat} (s : Bytes n) : Bytes 64 := Vector.ofFn fun i => byteAt s i.val

/-- `be32(s, i)`: four bytes, the first most significant (00_scope.md section 7.2, rule R39 (a)). -/
def be32 {n : Nat} (s : Bytes n) (i : Nat) : Word :=
  byteAt s (4 * i) ++ byteAt s (4 * i + 1) ++ byteAt s (4 * i + 2) ++ byteAt s (4 * i + 3)

/-- `ser32(w)`: `w[31:24], w[23:16], w[15:8], w[7:0]` (00_scope.md section 7.2). -/
def ser32 (w : Word) : Bytes 4 :=
  #v[w.extractLsb' 24 8, w.extractLsb' 16 8, w.extractLsb' 8 8, w.extractLsb' 0 8]

/-- `ser256(V)`: `ser32(V[0])` first (rules R39 (a), R87). -/
def ser256 (v : Words 8) : Bytes 32 := Vector.ofFn fun i => byteAt (ser32 (wordAt v (i.val / 4))) (i.val % 4)

/-- The 512-bit port carrying a 64-byte item: byte `k` is bits `8k+7 : 8k` (rules R35, R38). -/
def toWires (d : Bytes 64) : BitVec 512 := BitVec.ofNat 512 (d.toList.foldr (fun b n => b.toNat + 256 * n) 0)

/-- The 64 bytes on a 512-bit port: byte `k` is bits `8k+7 : 8k` (rules R35, R38). -/
def ofWires (w : BitVec 512) : Bytes 64 := Vector.ofFn fun k => w.extractLsb' (8 * k.val) 8

/-- `NB(op)`, the number of beats a job takes (rules R8, R50, R54). -/
def beatsOf : Op → Nat
  | .hash256 => 64
  | .hash128 => 64
  | .fold => 64
  | .sm3cf => 1

/-- `Len(op)`, the length of the result in bytes (rules R50, R56, R107). -/
def lenOf : Op → BitVec 7
  | .hash256 => 32#7
  | .hash128 => 16#7
  | .fold => 64#7
  | .sm3cf => 32#7

/-- The framing rule: `in_last` is 1 exactly on the last beat of the job (rules R37, R100). `n` is the beat's index. -/
def framed (op : Op) (n : Nat) (last : Bool) : Bool := last == decide (n = beatsOf op - 1)

/-- Lane `l` of a Block: bytes `64l` to `64l + 63` (rule R36). -/
def laneOf (block : Block) (l : Nat) : Bytes 64 := Vector.ofFn fun k => byteAt block (64 * l + k.val)

/-- The 64 beats by which the host sends a Block, lane by lane in rising order, `last` on beat 63 (rules R36, R37, R61). -/
def blockBeats (block : Block) : List Beat :=
  (List.range 64).map fun l => { data := laneOf block l, last := decide (l = 63) }

/-- The one beat by which the host sends the message block of an `SM3CF` job (rules R36, R37). -/
def messageBeat (b : Bytes 64) : Beat := { data := b, last := true }

end Sys2Proof.Machine
end

