-- ==== Sys2Proof/Machine/Flags.lean ====
section
/-! DEFINITION. The status register, the fault causes and what each of them records (spec/10_state.md rules R23, R24,
spec/60_exceptions.md rule R120). There are no condition codes (rule R23). -/

namespace Sys2Proof.Machine

/-- The causes of a fault (rule R120). -/
inductive Cause where
  /-- the command word taken is not legal (rule R122) -/
  | illcmd
  /-- the beat taken has a wrong `in_last` (rule R123) -/
  | frame
  deriving DecidableEq, Repr

/-- The code a cause has in `STATUS.CAUSE`; 0 is no fault, 3 to 15 never occur (rule R120). -/
def causeCode : Cause → BitVec 4
  | .illcmd => 1#4
  | .frame => 2#4

/-- `{n[7:0], F.cmd[23:0]}`: what FINFO records of a FRAME fault (rules R24, R120, R123). -/
def frameInfo (n : BitVec 7) (cmd : Word) : BitVec 32 := n.setWidth 8 ++ cmd.extractLsb' 0 24

/-- `STATUS.BUSY`, computed: a busy slot or a record not yet taken (rule R23). -/
def State.busy (s : State) : Bool := s.fSlot.busy || s.sSlot.busy || !s.oq.isEmpty

/-- `STATUS`, the pins `status[7:0]`: `CAUSE` in 7:4, 0 in 3:2, `FAULT` in 1, `BUSY` in 0 (rule R23). -/
def State.status (s : State) : BitVec 8 := s.cause ++ 0#2 ++ BitVec.ofBool s.fault ++ BitVec.ofBool s.busy

end Sys2Proof.Machine
end

