-- ==== Sys2Proof/Machine/Ops.lean ====
section
/-! DEFINITION. The shared operations on the state: the handshake conditions, taking an item off a stream, loading and
freeing a slot, the result queue, entering a fault, and reset, which alone leaves it (spec/42_digest_engine.md rules R99
to R105, spec/60_exceptions.md rule R124, spec/70_reset_and_hazards.md rule R136). -/

namespace Sys2Proof.Machine

namespace State

/-- The number of beats of the job in the F slot, where its opcode is a legal one (rule R54). -/
def fBeats (s : State) : Option Nat := (Op.ofCode s.fSlot.op).map beatsOf

/-- `F.cnt < NB(F.op)`. -/
def beatsMissing (s : State) : Bool := s.fBeats.any fun nb => decide (s.fSlot.cnt.toNat < nb)

/-- `F.cnt = NB(F.op)`. -/
def beatsComplete (s : State) : Bool := s.fBeats.any fun nb => decide (s.fSlot.cnt.toNat = nb)

/-- When `cmd_ready` may be 1: the guard of `AcceptCmd`, with `rst` low (rules R99, R105, R136). -/
def cmdReady (s : State) : Bool := !s.rst && !s.fault && !s.fSlot.busy

/-- When `in_ready` may be 1: the guard of `AcceptBeat`, with `rst` low (rules R100, R105, R136). -/
def inReady (s : State) : Bool := !s.rst && !s.fault && s.fSlot.busy && s.beatsMissing

/-- When `out_valid` may be 1: the guard of `Deliver`, with `rst` low (rules R103, R105, R136). -/
def outValid (s : State) : Bool := !s.rst && !s.oq.isEmpty

/-- The guard of `Advance`, with `rst` low (rules R101, R135). -/
def canAdvance (s : State) : Bool := !s.rst && s.fSlot.busy && s.beatsComplete && !s.sSlot.busy

/-- The guard of `Retire`, with `rst` low (rules R102, R135). -/
def canRetire (s : State) : Bool := !s.rst && s.sSlot.busy && decide (s.oq.length < s.cfg.outDepth)

/-- The pin `cmd_valid`: the host offers a command word (rules R32, R33). -/
def cmdValid (s : State) : Bool := !s.cmd.isEmpty

/-- The pin `in_valid`: the host offers a beat (rules R32, R33). -/
def inValid (s : State) : Bool := !s.beats.isEmpty

/-- The pins `cmd_data` while `cmd_valid` is 1: the word offered (rules R32, R34). -/
def cmdWires (s : State) : Option (BitVec 32) := s.cmd.head?

/-- The pins `in_data`, `in_last` while `in_valid` is 1: the beat offered (rules R35, R37). -/
def inWires (s : State) : Option (BitVec 512 × Bool) := s.beats.head?.map fun b => (toWires b.data, b.last)

/-- The pins `out_tag`, `out_len`, `out_data` while `out_valid` is 1: the head of the queue (rules R38, R105). -/
def outWires (s : State) : Option (BitVec 16 × BitVec 7 × BitVec 512) :=
  if s.outValid then s.oq.head?.map fun r => (r.tag, r.len, toWires r.data) else none

/-- The transfer of the command word offered: it leaves the command stream (rules R33, R42). -/
def takeCmd (s : State) : State := { s with cmd := s.cmd.drop 1 }

/-- The transfer of the beat offered: it leaves the data-in stream (rules R33, R42). -/
def takeBeat (s : State) : State := { s with beats := s.beats.drop 1 }

/-- A job enters the F slot: its opcode, tag and word, no beat taken yet; `ACC <- 0^64` (rules R15, R99). -/
def startJob (s : State) (op : Op) (tag : BitVec 16) : State :=
  { s with
    fSlot := { busy := true, op := op.code, tag := tag, cmd := commandWord op tag, cnt := 0 }
    acc := zeroBytes 64 }

/-- `ACC[k] <- ACC[k] xor d[k]` for each `k`, and one beat more is counted (rule R100). -/
def foldBeat (s : State) (d : Bytes 64) : State :=
  { s with fSlot := { s.fSlot with cnt := s.fSlot.cnt + 1 }, acc := xorBytes s.acc d }

/-- `F.busy <- 0`, and no other field of the slot is written (rules R101, R123). -/
def freeF (s : State) : State := { s with fSlot := { s.fSlot with busy := false } }

/-- `S.busy <- 0`, and no other field of the slot is written (rule R102). -/
def freeS (s : State) : State := { s with sSlot := { s.sSlot with busy := false } }

/-- The job in the F slot is copied to the S slot with `ACC` (rules R16, R101). -/
def loadS (s : State) : State :=
  { s with sSlot := { busy := true, op := s.fSlot.op, tag := s.fSlot.tag, blk := s.acc } }

/-- A record enters `OQ` at the tail (rules R22, R102). -/
def pushRecord (s : State) (r : Record) : State := { s with oq := s.oq ++ [r] }

/-- The host receives the head record of `OQ` (rules R42, R103). -/
def handRecord (s : State) (r : Record) : State := { s with oq := s.oq.drop 1, delivered := s.delivered ++ [r] }

/-- `raise <cause>(info)`, the one way into a fault: FAULT, CAUSE and FINFO are written and nothing else (rule R124). No
program counter is saved, no mode changes, control goes nowhere. -/
def raise (s : State) (c : Cause) (info : BitVec 32) : State :=
  { s with fault := true, cause := causeCode c, finfo := info }

/-- `Reset`, the one way out of a fault (rules R104, R128, R136): the engine's state goes to its value after reset,
whatever it was. The configuration is not touched, and what the host drives or holds is the host's (rules R26, R137). The
registers that rule R27 leaves unspecified get the values they have in `State.reset` (notes/assumptions/3.md). -/
def resetEngine (s : State) : State :=
  { s with
    fSlot := State.reset.fSlot
    acc := State.reset.acc
    sSlot := State.reset.sSlot
    sm3 := State.reset.sm3
    oq := State.reset.oq
    fault := State.reset.fault
    cause := State.reset.cause
    finfo := State.reset.finfo }

end State

/-- The first action of every command's pseudocode, step `AcceptCmd` on a legal word (rules R70, R91, R97, R98, R99): the
word is taken, the job enters the F slot and `ACC` is cleared. Where the guard does not hold the word waits and nothing
changes (rule R134). -/
def acceptJob (op : Op) (tag : BitVec 16) (s : State) : Host.Outcome State Fault Refusal :=
  if s.cmdReady then .next (s.takeCmd.startJob op tag) else .next s

/-- Step `AcceptCmd` on a word that is not legal (rules R99, R122): the word is taken and ILLCMD is raised with it. Where
the guard does not hold the word waits. -/
def acceptIllegal (c : Word) (s : State) : Host.Outcome State Fault Refusal :=
  if s.cmdReady then .next (s.takeCmd.raise .illcmd c) else .next s

/-- Step `AcceptBeat` on the beat offered (rules R100, R123): properly framed, it is folded in and counted; else it is
taken, not folded, FRAME is raised and the job is dropped. Where the guard does not hold the beat waits (rule R134). -/
def acceptBeat (b : Beat) (s : State) : Host.Outcome State Fault Refusal :=
  if s.inReady then
    if (Op.ofCode s.fSlot.op).any fun op => framed op s.fSlot.cnt.toNat b.last then
      .next (s.takeBeat.foldBeat b.data)
    else
      .next ((s.takeBeat.raise .frame (frameInfo s.fSlot.cnt s.fSlot.cmd)).freeF)
  else .next s

/-- Step `Advance` (rule R101): the job moves from the fold stage to the SM3 stage. -/
def advance (s : State) : Host.Outcome State Fault Refusal :=
  if s.canAdvance then .next s.loadS.freeF else .next s

/-- Step `Deliver` (rule R103): the host, being ready, takes the head record. -/
def deliver (s : State) : Host.Outcome State Fault Refusal :=
  match s.oq with
  | r :: _ => if s.outValid && s.outReady then .next (s.handRecord r) else .next s
  | [] => .next s

end Sys2Proof.Machine
end

