-- ==== Sys2Proof/Machine/Fold.lean ====
section
/-! DEFINITION. The XOR-fold compressor and the command `FOLD` (spec/40_xor_fold.md). -/

namespace Sys2Proof.Machine

/-- `XOR_{l in 0..n-1} f(l)`; zero when there is no `l` (00_scope.md section 7.2). -/
def xorOver (n : Nat) (f : Nat → Byte) : Byte := (List.range n).foldl (fun x l => x ^^^ f l) 0x00#8

/-- `Fold(block)[k] = XOR_{l in 0..63} block[64*l + k]` (rule R65). -/
def foldBlock (block : Block) : Bytes 64 := Vector.ofFn fun k => xorOver Config.lanes fun l => byteAt block (64 * l + k.val)

/-- What `FOLD` returns for the 64-byte value that reaches the SM3 stage: that value (rules R70, R107). -/
def resultFold (blk : Bytes 64) : Bytes 64 := blk

/-- `FOLD` (rule R70). The command's transfer starts the job; its 64 beats are folded into `ACC` by step `AcceptBeat`, and
its record is `resultFold` of the value that `Advance` hands over. -/
def execFold (tag : BitVec 16) (s : State) : Host.Outcome State Fault Refusal := acceptJob .fold tag s

end Sys2Proof.Machine
end

