-- ==== Sys2Proof/Machine/Sm3.lean ====
section
/-! DEFINITION. The SM3 compression core and the command `SM3CF` (spec/41_sm3_core.md). -/

namespace Sys2Proof.Machine

/-- `rotl32(x, n)`: left rotation by `m = n mod 32` places, `x` itself when `m = 0` (00_scope.md section 7.2, rule R89 (b)). -/
def rotl32 (x : Word) (n : Nat) : Word :=
  if n % 32 = 0 then x else (x <<< (n % 32)) ||| (x >>> (32 - n % 32))

/-- The initial value (rule R74). -/
def iv : Words 8 :=
  #v[0x7380166f, 0x4914b2b9, 0x172442d7, 0xda8a0600, 0xa96f30bc, 0x163138aa, 0xe38dee4d, 0xb0fb0e4e]

/-- The round constant `T_j` (rule R75). -/
def roundT (j : Nat) : Word := if j ≤ 15 then 0x79cc4519 else 0x7a879d8a

/-- The permutation `P0` (rule R77). -/
def p0 (x : Word) : Word := x ^^^ rotl32 x 9 ^^^ rotl32 x 17

/-- The permutation `P1` (rule R77). -/
def p1 (x : Word) : Word := x ^^^ rotl32 x 15 ^^^ rotl32 x 23

/-- The boolean function `FF_j` (rule R78). -/
def ff (j : Nat) (x y z : Word) : Word :=
  if j ≤ 15 then x ^^^ y ^^^ z else (x &&& y) ||| (x &&& z) ||| (y &&& z)

/-- The boolean function `GG_j` (rule R78). -/
def gg (j : Nat) (x y z : Word) : Word :=
  if j ≤ 15 then x ^^^ y ^^^ z else (x &&& y) ||| ((~~~x) &&& z)

/-- The word load: `W[i] = be32(B, i)` for `i` = 0 to 15 (rule R76); the other registers of the file are written by the
expansion before they are read. -/
def loadWords (b : Bytes 64) : Words 68 := Vector.ofFn fun i => if i.val < 16 then be32 b i.val else 0

/-- The recurrence of the message expansion, for one `j` (rule R79). -/
def expandAt (w : Words 68) (j : Nat) : Words 68 :=
  w.setIfInBounds j
    (p1 (wordAt w (j - 16) ^^^ wordAt w (j - 9) ^^^ rotl32 (wordAt w (j - 3)) 15)
      ^^^ rotl32 (wordAt w (j - 13)) 7 ^^^ wordAt w (j - 6))

/-- The expanded message `W[0..67]`: the load, then the recurrence for `j = 16 .. 67` (rules R76, R79). -/
def expand (b : Bytes 64) : Words 68 := (List.range' 16 52).foldl expandAt (loadWords b)

/-- `W'[j] = W[j] xor W[j+4]` (rule R80). -/
def wPrime (w : Words 68) (j : Nat) : Word := wordAt w j ^^^ wordAt w (j + 4)

/-- One round (rule R84), given `W[j]` and `W'[j]`; every right-hand side is taken from the registers before the round. -/
def roundWith (wj wj' : Word) (j : Nat) (r : Regs) : Regs :=
  let ss1 := rotl32 (rotl32 r.a 12 + r.e + rotl32 (roundT j) (j % 32)) 7
  let ss2 := ss1 ^^^ rotl32 r.a 12
  let tt1 := ff j r.a r.b r.c + r.d + ss2 + wj'
  let tt2 := gg j r.e r.f r.g + r.h + ss1 + wj
  { a := tt1, b := r.a, c := rotl32 r.b 9, d := r.c, e := p0 tt2, f := r.e, g := rotl32 r.f 19, h := r.g }

/-- Round `j` on an expanded message (rules R80, R84). -/
def roundAt (w : Words 68) (r : Regs) (j : Nat) : Regs := roundWith (wordAt w j) (wPrime w j) j r

/-- The 64 rounds, `j` = 0 to 63 in this order (rule R84). -/
def allRounds (w : Words 68) (r : Regs) : Regs := (List.range Config.rounds).foldl (roundAt w) r

/-- The start of a compression: `A..H <- V` (rule R83). -/
def startRegs (v : Words 8) : Regs :=
  { a := v[0], b := v[1], c := v[2], d := v[3], e := v[4], f := v[5], g := v[6], h := v[7] }

/-- The feed-forward: `V'[0] = A xor V[0]` and so on (rule R85). -/
def feedForward (v : Words 8) (r : Regs) : Words 8 :=
  #v[r.a ^^^ v[0], r.b ^^^ v[1], r.c ^^^ v[2], r.d ^^^ v[3], r.e ^^^ v[4], r.f ^^^ v[5], r.g ^^^ v[6], r.h ^^^ v[7]]

/-- The compression function `CF(V, B)` (rules R73, R86). -/
def cf (v : Words 8) (b : Bytes 64) : Words 8 := feedForward v (allRounds (expand b) (startRegs v))

/-- The hidden registers over one compression of a job (rules R20, R83 to R85): the message is expanded into `W`, the
rounds run to `j` = 64, `V` takes the feed-forward, and one pass more is counted. -/
def Sm3Core.compress (c : Sm3Core) (b : Bytes 64) : Sm3Core :=
  let w := expand b
  let r := allRounds w (startRegs c.v)
  { v := feedForward c.v r, regs := r, w := w, j := 64#7, p := c.p + 1 }

/-- The hidden registers at the start of a job: `V <- IV`, no compression finished (rules R18, R20, R83). -/
def Sm3Core.startJob (c : Sm3Core) : Sm3Core := { c with v := iv, p := 0#2 }

/-! ### The round-per-step realization (rule R90) -/

/-- The state of the realization of rule R90: `V`, `A..H`, a window of 16 words, the counter. -/
structure Window where
  v : Words 8
  regs : Regs
  w : Words 16
  j : Nat
  deriving DecidableEq, Repr

/-- `start(V_in, B)` of rule R90. -/
def windowStart (v : Words 8) (b : Bytes 64) : Window :=
  { v := v, regs := startRegs v, w := Vector.ofFn fun i => be32 b i.val, j := 0 }

/-- The new word of a round of rule R90. -/
def windowNew (w : Words 16) : Word := p1 (w[0] ^^^ w[7] ^^^ rotl32 w[13] 15) ^^^ rotl32 w[3] 7 ^^^ w[10]

/-- `round` of rule R90, with its guard `j < 64`. -/
def windowRound (s : Window) : Window :=
  if s.j < 64 then
    { s with
      regs := roundWith s.w[0] (s.w[0] ^^^ s.w[4]) s.j s.regs
      w := Vector.ofFn fun i => if h : i.val + 1 < 16 then s.w[i.val + 1] else windowNew s.w
      j := s.j + 1 }
  else s

/-- `k` steps `round` of the realization of rule R90. -/
def windowRun : Nat → Window → Window
  | 0, s => s
  | k + 1, s => windowRun k (windowRound s)

/-- `finish` of rule R90, which has the guard `j = 64`. -/
def windowFinish (s : Window) : Option (Words 8) := if s.j = 64 then some (feedForward s.v s.regs) else none

/-! ### The command -/

/-- What `SM3CF` returns for its message block: `ser256(CF(IV, blk))` (rules R91, R107). -/
def resultSm3cf (blk : Bytes 64) : Bytes 64 := padTo64 (ser256 (cf iv blk))

/-- `SM3CF` (rule R91). The command's transfer starts the job; its one beat is taken by step `AcceptBeat`, and its record
is `resultSm3cf` of that beat. -/
def execSm3cf (tag : BitVec 16) (s : State) : Host.Outcome State Fault Refusal := acceptJob .sm3cf tag s

end Sys2Proof.Machine
end

