-- ==== Sys2Proof/Machine/Digest.lean ====
section
/-! DEFINITION. The digest function, the commands `HASH256` and `HASH128`, and what the SM3 stage gives for each opcode
(spec/42_digest_engine.md rules R94 to R98, R107). -/

namespace Sys2Proof.Machine

/-- `PADBLK`: `0x80`, 55 bytes `0x00`, then `00 00 00 00 00 00 02 00` (rule R94). -/
def padBlk : Bytes 64 := Vector.ofFn fun i => if i.val = 0 then 0x80#8 else if i.val = 62 then 0x02#8 else 0x00#8

/-- `Fin(V)` of rule R107: the second compression of `PAD_MODE = 1` (rule R95). -/
def padFinish (pad : PadMode) (v : Words 8) : Words 8 :=
  match pad with
  | .pad0 => v
  | .pad1 => cf v padBlk

/-- The state `V2` of rule R95 for the intermediate `blk`. -/
def digestState (pad : PadMode) (blk : Bytes 64) : Words 8 := padFinish pad (cf iv blk)

/-- `Digest256(block)` (rule R95). -/
def digest256 (pad : PadMode) (block : Block) : Bytes 32 := ser256 (digestState pad (foldBlock block))

/-- `Digest128(block) = bytes(Digest256(block), 0, 16)` (rule R96). -/
def digest128 (pad : PadMode) (block : Block) : Bytes 16 := bytesOf (digest256 pad block) 0 16

/-- What `HASH256` returns for the intermediate `blk` (rules R97, R107). -/
def resultHash256 (pad : PadMode) (blk : Bytes 64) : Bytes 64 := padTo64 (ser256 (digestState pad blk))

/-- What `HASH128` returns for the intermediate `blk` (rules R98, R107). -/
def resultHash128 (pad : PadMode) (blk : Bytes 64) : Bytes 64 := padTo64 (bytesOf (ser256 (digestState pad blk)) 0 16)

/-- `HASH256` (rule R97). The command's transfer starts the job; its 64 beats are folded into `ACC` by step `AcceptBeat`,
and its record is `resultHash256` of the fold. -/
def execHash256 (tag : BitVec 16) (s : State) : Host.Outcome State Fault Refusal := acceptJob .hash256 tag s

/-- `HASH128` (rule R98). As `HASH256` up to the record, which is `resultHash128` of the fold. -/
def execHash128 (tag : BitVec 16) (s : State) : Host.Outcome State Fault Refusal := acceptJob .hash128 tag s

/-- `Result(op, blk)` (rule R107). -/
def result (pad : PadMode) (op : Op) (blk : Bytes 64) : Bytes 64 :=
  match op with
  | .hash256 => resultHash256 pad blk
  | .hash128 => resultHash128 pad blk
  | .fold => resultFold blk
  | .sm3cf => resultSm3cf blk

/-- The record of a job: its tag, `Len(op)`, `Result(op, blk)` (rules R56, R102). -/
def recordOf (pad : PadMode) (op : Op) (tag : BitVec 16) (blk : Bytes 64) : Record :=
  { tag := tag, len := lenOf op, data := result pad op blk }

/-- The hidden registers over one whole job of the SM3 stage: `1 + PAD_MODE` compressions for a digest, one for `SM3CF`,
none for `FOLD` (rules R18, R20, R95). -/
def Sm3Core.runJob (pad : PadMode) (op : Op) (blk : Bytes 64) (c : Sm3Core) : Sm3Core :=
  match op with
  | .fold => c.startJob
  | .sm3cf => c.startJob.compress blk
  | .hash256 | .hash128 =>
    match pad with
    | .pad0 => c.startJob.compress blk
    | .pad1 => (c.startJob.compress blk).compress padBlk

/-- Step `Retire` (rule R102): the SM3 stage finishes its job, its record enters `OQ`, the slot is free. The hidden
registers end as the rounds leave them (rule R21, notes/assumptions/4.md). Rule R107 gives no result for an opcode that
is not legal. -/
def retire (s : State) : Host.Outcome State Fault Refusal :=
  if s.canRetire then
    match Op.ofCode s.sSlot.op with
    | some op =>
      .next (({ s with sm3 := s.sm3.runJob s.cfg.padMode op s.sSlot.blk }).pushRecord
        (recordOf s.cfg.padMode op s.sSlot.tag s.sSlot.blk)).freeS
    | none => .fault .slotOpcode
  else .next s

end Sys2Proof.Machine
end

