-- ==== Sys2Proof/Machine/Dispatch.lean ====
section
/-! DEFINITION. The dispatch: one arm per command, one direct call of its meaning. -/

namespace Sys2Proof.Machine

open Sys2Proof

def exec (i : Instr) (s : State) : Host.Outcome State Fault Refusal :=
  match i with
  -- spec/42_digest_engine.md
  | .hash256 tag => Sys2Proof.Machine.execHash256 tag s
  | .hash128 tag => Sys2Proof.Machine.execHash128 tag s
  -- spec/40_xor_fold.md
  | .fold tag => Sys2Proof.Machine.execFold tag s
  -- spec/41_sm3_core.md
  | .sm3cf tag => Sys2Proof.Machine.execSm3cf tag s

end Sys2Proof.Machine
end

