-- ==== Sys2Proof/Machine/Engine.lean ====
section
/-! DEFINITION. The steps of the engine and the moves of the host, put together (spec/42_digest_engine.md section 3,
spec/60_exceptions.md rule R126, spec/70_reset_and_hazards.md rules R135, R136, R147). -/

namespace Sys2Proof.Machine

/-- Step `AcceptCmd` on the word offered, if one is (rules R99, R122): a legal word's command is executed. -/
def acceptCmd (s : State) : Host.Outcome State Fault Refusal :=
  match s.cmd with
  | [] => .next s
  | c :: _ =>
    match decode c with
    | .command i => exec i s
    | .illegal => acceptIllegal c s

/-- Step `AcceptBeat` on the beat offered, if one is (rule R100). -/
def offeredBeat (s : State) : Host.Outcome State Fault Refusal :=
  match s.beats with
  | [] => .next s
  | b :: _ => acceptBeat b s

/-- One step of the engine. A step whose guard does not hold changes nothing. While `rst` is 1 the step is `Reset`,
whatever it would have been: reset wins over everything (rules R104, R126, R135). -/
def engineStep (e : EngineStep) (s : State) : Host.Outcome State Fault Refusal :=
  if s.rst then .next s.resetEngine
  else
    match e with
    | .acceptCmd => acceptCmd s
    | .acceptBeat => offeredBeat s
    | .advance => advance s
    | .retire => retire s
    | .deliver => deliver s

/-- One move of the host (rule R106): it changes what the host drives on one port and no state of the engine. -/
def hostMove (m : HostMove) (s : State) : State :=
  match m with
  | .driveRst level => { s with rst := level }
  | .driveCmd words => { s with cmd := words }
  | .driveIn beats => { s with beats := beats }
  | .driveOutReady level => { s with outReady := level }

/-- Whether a step can be taken now: its guard holds, and for a transfer the host offers the item or is ready for it. -/
def enabled (s : State) : EngineStep → Bool
  | .acceptCmd => s.cmdReady && s.cmdValid
  | .acceptBeat => s.inReady && s.inValid
  | .advance => s.canAdvance
  | .retire => s.canRetire
  | .deliver => s.outValid && s.outReady

/-- The step taken when the agenda is empty: the first one enabled, the end of the pipeline first. One of the orders that
rule R10 leaves open, and a fair one (rule R147; notes/assumptions/2.md). -/
def firstEnabled (s : State) : Option EngineStep :=
  [EngineStep.deliver, .retire, .advance, .acceptBeat, .acceptCmd].find? (enabled s)

/-- The move made when the agenda is empty: `Reset` while `rst` is 1, else the first step enabled, else none. -/
def defaultMove (s : State) : Host.Outcome State Fault Refusal :=
  if s.rst then .next s.resetEngine
  else
    match firstEnabled s with
    | some e => engineStep e s
    | none => .next s

/-- The next move of the run: the head of the agenda, or the default. -/
def nextMove (s : State) : Host.Outcome State Fault Refusal :=
  match s.agenda with
  | [] => defaultMove s
  | .engine e :: rest => engineStep e { s with agenda := rest }
  | .host m :: rest => .next (hostMove m { s with agenda := rest })

/-- The word placed at the head of the command stream, with every condition of its transfer met: `rst` low, no fault
recorded, the F slot free, and the transfer the next move (rules R99, R136). -/
def placeCommand (s : State) (c : Word) : State :=
  { s with
    rst := false
    fault := false
    cause := 0
    finfo := 0
    fSlot := { s.fSlot with busy := false }
    cmd := c :: s.cmd
    agenda := .engine .acceptCmd :: s.agenda }

end Sys2Proof.Machine
end

