-- ==== Sys2Proof/Machine/Step.lean ====
section
/-! DEFINITION. One step of the machine, and how a command word is placed so that the next step runs it. -/

namespace Sys2Proof.Machine

/-- One step: the next move of the run (rules R10, R99 to R106). -/
def step (s : State) : Host.Outcome State Fault Refusal := nextMove s

/-- The instruction whose bits are `w` offered next on the command stream and taken by the very next step. The engine has
no program memory: a program is the sequence of words the host offers (rules R17, R34; notes/assumptions/5.md). -/
def State.withFetchWord (s : State) (nbits w : Nat) : State := placeCommand s (BitVec.ofNat 32 (w % 2 ^ nbits))

end Sys2Proof.Machine
end

