-- ==== Sys2Proof/Machine/Cluster.lean ====
section
/-! DEFINITION. Several engines side by side (spec/42_digest_engine.md rule R110, spec/60_exceptions.md rule R132): a list
of complete engines, each with its own streams, state and reset. Its length is the open parameter `NUM_ENGINES`.

DESIGN CHOICE (notes/assumptions/14.md): rule R110 makes each engine a complete copy and does not say whether two engines may
be built with different `PAD_MODE` or `OUT_DEPTH`. Each engine here carries its own configuration, so they may differ. -/

namespace Sys2Proof.Machine

/-- The engines a host uses, each with its own configuration (notes/assumptions/14.md). -/
abbrev Cluster := List State

/-- `NUM_ENGINES` of a cluster (rules R9, R110). -/
def Cluster.hostConfig (engines : Cluster) : HostConfig := { numEngines := engines.length }

/-- A host uses at least one engine (rules R9, R110). -/
def Cluster.wf (engines : Cluster) : Bool := engines.hostConfig.wf

/-- `NUM_ENGINES` engines right after reset, each built with this configuration (rules R9, R27, R110). -/
def Cluster.reset (h : HostConfig) (c : Config) : Cluster := List.replicate h.numEngines { State.reset with cfg := c }

/-- The next move of engine `w`; the other engines do not move. Which engine moves next is the caller's choice, since no
order among engines exists (rule R110). A number that is no engine's moves nothing. -/
def clusterStep (engines : Cluster) (w : Nat) : Host.Outcome Cluster Fault Refusal :=
  match engines[w]? with
  | none => .next engines
  | some s =>
    match step s with
    | .next t => .next (engines.set w t)
    | .fault r => .fault r
    | .refused r => .refused r

/-- The join (rule R113): every engine used has `STATUS.BUSY = 0`, and the host has taken as many records from each as it
sent commands to it. `sent` gives that number for each engine, counted from where its list of records taken begins. -/
def joined (engines : Cluster) (sent : List Nat) : Bool :=
  engines.length == sent.length && (engines.zip sent).all fun p => !p.1.busy && p.1.delivered.length == p.2

/-- The engines' moves in the order of a schedule. -/
def clusterRun (engines : Cluster) : List Nat → Host.Outcome Cluster Fault Refusal
  | [] => .next engines
  | w :: ws =>
    match clusterStep engines w with
    | .next d => clusterRun d ws
    | .fault r => .fault r
    | .refused r => .refused r

end Sys2Proof.Machine
end

