-- ==== Sys2Proof/Machine/Script.lean ====
section
/-! DEFINITION. The command script and its two pseudo-commands (spec/30_encoding.md rules R60 to R63), and the partition
of blocks among engines (spec/42_digest_engine.md rule R111). A notation for what the host sends; it is not hardware. -/

namespace Sys2Proof.Machine

/-- A line of a command script (rules R60, R61). -/
inductive ScriptLine where
  /-- `M tag=t` -/
  | command (op : Op) (tag : Nat)
  /-- `RAW w` -/
  | raw (w : Word)
  /-- `.block b` -/
  | block (b : Block)
  /-- `.beat d [last]` -/
  | beat (d : Bytes 64) (last : Bool)
  deriving DecidableEq, Repr

/-- A tag of a script line is a number 0 to 65535 (rule R60). -/
def ScriptLine.wf : ScriptLine → Bool
  | .command _ tag => decide (tag ≤ 65535)
  | .raw _ => true
  | .block _ => true
  | .beat _ _ => true

/-- The generators a `.block` line may name (rule R61). -/
inductive Generator where
  | zero
  | ones
  | pattern
  deriving DecidableEq, Repr

/-- The block of a generator: all bytes `0x00`; all bytes `0xFF`; `byte[i] = i mod 256` (rule R61). -/
def Generator.block : Generator → Block
  | .zero => Vector.replicate 4096 0x00#8
  | .ones => Vector.replicate 4096 0xFF#8
  | .pattern => Vector.ofFn fun i => BitVec.ofNat 8 (i.val % 256)

/-- The line `M tag=t` assembles to the word `(t << 8) or OPC(M)` (rule R60). -/
def assembleCommand (op : Op) (tag : Nat) : Word := (BitVec.ofNat 32 tag <<< 8) ||| op.code.setWidth 32

/-- The command words of a line (rule R60); data lines have none. -/
def lineWords : ScriptLine → List Word
  | .command op tag => [assembleCommand op tag]
  | .raw w => [w]
  | .block _ => []
  | .beat _ _ => []

/-- The beats of a line (rule R61); command lines have none. -/
def lineBeats : ScriptLine → List Beat
  | .command _ _ => []
  | .raw _ => []
  | .block b => blockBeats b
  | .beat d last => [{ data := d, last := last }]

/-- What a script offers on the command stream. -/
def scriptWords (lines : List ScriptLine) : List Word := lines.flatMap lineWords

/-- What a script offers on the data-in stream. -/
def scriptBeats (lines : List ScriptLine) : List Beat := lines.flatMap lineBeats

/-- The `<bits>` of the pseudo-commands: 256 or 128 (rules R62, R63). -/
inductive DigestBits where
  | b256
  | b128
  deriving DecidableEq, Repr

/-- `HASH<bits>`. -/
def hashOp : DigestBits → Op
  | .b256 => .hash256
  | .b128 => .hash128

/-- The jobs of `HASHBATCH<bits>` from tag number `t` on: for each block in index order, the command line and the block
line (rule R62). -/
def hashBatch (bits : DigestBits) : (t : Nat) → (blocks : List Block) → List ScriptLine
  | _, [] => []
  | t, b :: bs => .command (hashOp bits) (t % 65536) :: .block b :: hashBatch bits (t + 1) bs

/-- `T_eff`: 1 if `T <= 0`, else `T` (rule R111). -/
def effectiveWorkers (t : Int) : Nat := if t ≤ 0 then 1 else t.toNat

/-- `c = ceil(M / T_eff)` (rule R111). -/
def chunkSize (m : Nat) (t : Int) : Nat := (m + effectiveWorkers t - 1) / effectiveWorkers t

/-- The index range of worker `w`: from `min(w*c, M)` to below `min((w+1)*c, M)` (rule R111). -/
def workerRange (m : Nat) (t : Int) (w : Nat) : Nat × Nat :=
  (min (w * chunkSize m t) m, min ((w + 1) * chunkSize m t) m)

/-- The blocks of worker `w`. -/
def workerBlocks (blocks : List Block) (t : Int) (w : Nat) : List Block :=
  (blocks.take (workerRange blocks.length t w).2).drop (workerRange blocks.length t w).1

/-- `HASHPAR<bits>`: one script per engine, a `HASHBATCH<bits>` over its range with the first index as base (rule R63). -/
def hashPar (bits : DigestBits) (t : Int) (blocks : List Block) : List (List ScriptLine) :=
  (List.range (effectiveWorkers t)).map fun w =>
    hashBatch bits ((workerRange blocks.length t w).1 % 65536) (workerBlocks blocks t w)

/-- The script for one engine that is given the blocks with these indices, whatever they are: for each index `i`, in the
order given, the command line with tag `i mod 65536` and the block line (rule R112). -/
def hashIndices (bits : DigestBits) (blocks : List Block) (indices : List Nat) : List ScriptLine :=
  indices.flatMap fun i =>
    [.command (hashOp bits) (i % 65536), .block (blocks.getD i Generator.zero.block)]

end Sys2Proof.Machine
end

