-- ==== Sys2Proof/Safety.lean ====
section
/-! DEFINITION. The terms in which claims about runs are made: the invariant of spec/10_state.md rule R30, what the engine
has promised its host (spec/42_digest_engine.md rule R108, spec/60_exceptions.md rule R127), the end of a run (rule R114),
and what no rule reads (spec/10_state.md rule R27). -/

namespace Sys2Proof.Machine

/-- `k` steps of the machine, stopping at the first fault or refusal: `Host.Core.run` on this machine
(`Laws/Run.lean`, `run_eq_core_run`). -/
def run : Nat → State → Host.Outcome State Fault Refusal
  | 0, s => .next s
  | k + 1, s =>
    match step s with
    | .next t => run k t
    | .fault r => .fault r
    | .refused r => .refused r

/-- A result record has one of the three lengths, and zeros after them (rules R22, R56). -/
def Record.wf (r : Record) : Prop :=
  (r.len = 16#7 ∨ r.len = 32#7 ∨ r.len = 64#7) ∧ ∀ i, r.len.toNat ≤ i → byteAt r.data i = 0x00#8

/-- The invariant of rule R30 (a) to (e), with the widths and ranges that rules R9, R14, R17, R20, R22, R120 state. -/
structure EngineInv (s : State) : Prop where
  /-- `OUT_DEPTH >= 1` (rule R9) -/
  depth : s.cfg.wf = true
  /-- (a) a busy F slot: a legal opcode, `F.cnt <= NB(F.op)`, and the word it came from (rule R14) -/
  fSlot : s.fSlot.busy = true → ∃ op, Op.ofCode s.fSlot.op = some op ∧ s.fSlot.cnt.toNat ≤ beatsOf op ∧
    s.fSlot.cmd = commandWord op s.fSlot.tag
  /-- (b) a busy S slot: a legal opcode -/
  sSlot : s.sSlot.busy = true → (Op.ofCode s.sSlot.op).isSome = true
  /-- (c) the queue holds at most `OUT_DEPTH` records -/
  queue : s.oq.length ≤ s.cfg.outDepth
  /-- every queued record has the form of rule R56 -/
  records : ∀ r ∈ s.oq, r.wf
  /-- (d) after a fault the F slot is free -/
  faultFree : s.fault = true → s.fSlot.busy = false
  /-- (e) `CAUSE = 0` exactly when no fault is recorded -/
  causeIff : s.cause = 0#4 ↔ s.fault = false
  /-- causes 3 to 15 never occur (rule R120) -/
  causeRange : s.cause.toNat ≤ 2
  /-- (e) `FINFO = 0` while no fault is recorded -/
  finfo : s.fault = false → s.finfo = 0#32
  /-- the round counter stops at 64 and the pass counter at 2 (rules R17, R20) -/
  counters : s.sm3.j.toNat ≤ 64 ∧ s.sm3.p.toNat ≤ 2

/-- The jobs in flight, by tag, oldest first (rule R30 (f)): the queue, then the S slot, then the F slot. -/
def inFlight (s : State) : List (BitVec 16) :=
  s.oq.map (·.tag) ++ (bif s.sSlot.busy then [s.sSlot.tag] else []) ++ (bif s.fSlot.busy then [s.fSlot.tag] else [])

/-- A job's remaining beats, from beat `n` on, taken from a stream: the fold and the rest of the stream, or nothing when
the beats run out (rule R134) or one is not properly framed (rule R123). -/
def gather (op : Op) : (n : Nat) → (acc : Bytes 64) → List Beat → Option (Bytes 64 × List Beat)
  | n, acc, [] => if n = beatsOf op then some (acc, []) else none
  | n, acc, b :: bs =>
    if n = beatsOf op then some (acc, b :: bs)
    else if n < beatsOf op && framed op n b.last then gather op (n + 1) (xorBytes acc b.data) bs
    else none

/-- The records an idle engine owes for what its host offers: one per command word in stream order, each a function of its
own word and its own beats (rules R11, R44, R108), up to the first word that is illegal and the first job whose beats run
out or are not properly framed (rules R127, R134). -/
def expected (pad : PadMode) : List Word → List Beat → List Record
  | [], _ => []
  | c :: cs, bs =>
    match decode c with
    | .illegal => []
    | .command i =>
      match gather i.op 0 (zeroBytes 64) bs with
      | some (blk, rest) => recordOf pad i.op i.tag blk :: expected pad cs rest
      | none => []

/-- The record of the job in the S slot. -/
def owedByS (s : State) : List Record :=
  bif s.sSlot.busy then
    match Op.ofCode s.sSlot.op with
    | some op => [recordOf s.cfg.padMode op s.sSlot.tag s.sSlot.blk]
    | none => []
  else []

/-- The records owed for the job in the F slot and for what the host still offers; none after a fault (rule R125). -/
def owedByIntake (s : State) : List Record :=
  bif s.fault then []
  else bif s.fSlot.busy then
    match Op.ofCode s.fSlot.op with
    | some op =>
      match gather op s.fSlot.cnt.toNat s.acc s.beats with
      | some (blk, rest) => recordOf s.cfg.padMode op s.fSlot.tag blk :: expected s.cfg.padMode s.cmd rest
      | none => []
    | none => []
  else expected s.cfg.padMode s.cmd s.beats

/-- Every record the host has or will have, in order: those taken, those queued, the S slot's, the intake's. -/
def promised (s : State) : List Record := s.delivered ++ s.oq ++ owedByS s ++ owedByIntake s

/-- The agenda's next move is the engine's own or drives `out_ready`: it changes neither what the host offers nor `rst`. -/
def inputsHeld (s : State) : Bool :=
  match s.agenda with
  | [] => true
  | .engine _ :: _ => true
  | .host (.driveOutReady _) :: _ => true
  | .host (.driveRst _) :: _ => false
  | .host (.driveCmd _) :: _ => false
  | .host (.driveIn _) :: _ => false

/-- The move offers a command word or a beat: a host with such a move to come has more to send. -/
def Move.sends : Move → Bool
  | .host (.driveCmd words) => !words.isEmpty
  | .host (.driveIn beats) => !beats.isEmpty
  | .host (.driveRst _) => false
  | .host (.driveOutReady _) => false
  | .engine _ => false

/-- A finished run (rule R114): the host has nothing more to send, neither offered now nor in a move to come; both slots
free, the queue empty, no fault. -/
def finished (s : State) : Prop :=
  s.cmd = [] ∧ s.beats = [] ∧ s.agenda.all (fun m => !m.sends) = true ∧ s.fSlot.busy = false ∧ s.sSlot.busy = false ∧ s.oq = [] ∧ s.fault = false

/-- The F slot waits for beats that are not offered (rule R134). -/
def waitsForBeats (s : State) : Prop := s.inReady = true ∧ s.beats = []

/-- The moves that take a job of `n` beats from its accepted command to its queued record, nothing between them. -/
def jobMoves (n : Nat) : List Move :=
  List.replicate n (.engine .acceptBeat) ++ [.engine .advance, .engine .retire]

/-- The record of a digest job with tag number `t` over one block (rules R56, R95, R96). -/
def digestRecord (bits : DigestBits) (pad : PadMode) (t : Nat) (block : Block) : Record :=
  match bits with
  | .b256 => { tag := BitVec.ofNat 16 t, len := 32#7, data := padTo64 (digest256 pad block) }
  | .b128 => { tag := BitVec.ofNat 16 t, len := 16#7, data := padTo64 (digest128 pad block) }

/-- The records of a batch of digest jobs whose tags count from `t`: record `i` has the tag of command `i` and the digest
of block `i` (rules R62, R108). -/
def batchRecords (bits : DigestBits) (pad : PadMode) (t : Nat) (blocks : List Block) : List Record :=
  (blocks.zipIdx t).map fun bi => digestRecord bits pad bi.2 bi.1

/-- The records of the blocks with these indices, in the order of the indices, each with its index as the tag number (rule
R112). -/
def indexRecords (bits : DigestBits) (pad : PadMode) (blocks : List Block) (indices : List Nat) : List Record :=
  indices.map fun i => digestRecord bits pad i (blocks.getD i Generator.zero.block)

/-- A block with the bits of `m` flipped in its byte `i` (rule R67). -/
def flipByte (x : Block) (i : Nat) (m : Byte) : Block :=
  Vector.ofFn fun q => if q.val = i then byteAt x q.val ^^^ m else byteAt x q.val

/-- The state with every register that no rule reads set to one value (rules R14, R16, R21, R27): the fields of a free
slot, `ACC` while the F slot is free, the hidden registers. -/
def readable (s : State) : State :=
  { s with
    fSlot := bif s.fSlot.busy then s.fSlot else FSlot.reset
    acc := bif s.fSlot.busy then s.acc else zeroBytes 64
    sSlot := bif s.sSlot.busy then s.sSlot else SSlot.reset
    sm3 := Sm3Core.reset }

/-- An outcome, its next state taken through `readable`. -/
def readableOutcome : Host.Outcome State Fault Refusal → Host.Outcome State Fault Refusal
  | .next s => .next (readable s)
  | .fault r => .fault r
  | .refused r => .refused r

end Sys2Proof.Machine
end

