-- ==== Sys2Proof/Certificates/Slice0/Obligations.lean ====
section
/-! DEFINITION. The statements about the machine that are to be proved. Each names the rules of spec/ it formalises. -/

open Sys2Proof Sys2Proof.Machine

/-! ### The encoding (spec/30_encoding.md) -/

/-- Decoder and encoder agree in both directions (rules R49, R53): a well-formed command is read back from its word with
every tag; a word read as a command is that command's word; every other word is the illegal ones of `Legal`. -/
def Obligations.DecodeAndEncodeAgree : Prop :=
  (∀ i : Instr, i.wf = true → decode (encode i) = .command i) ∧
  (∀ (c : Word) (i : Instr), decode c = .command i → i.wf = true ∧ encode i = c) ∧
  (∀ c : Word, decode c = .illegal ↔ legal c = false)

/-- The match and mask form of the decoder (rules R53, R64): with mask `0xFF0000FF`, each row of the table reads its own
match and no other word. -/
def Obligations.DecoderIsTheTable : Prop :=
  ∀ c : Word,
    (c &&& 0xFF0000FF#32 = 0x00000001#32 → decode c = .command (.hash256 (c.extractLsb' 8 16))) ∧
    (c &&& 0xFF0000FF#32 = 0x00000002#32 → decode c = .command (.hash128 (c.extractLsb' 8 16))) ∧
    (c &&& 0xFF0000FF#32 = 0x00000003#32 → decode c = .command (.fold (c.extractLsb' 8 16))) ∧
    (c &&& 0xFF0000FF#32 = 0x00000004#32 → decode c = .command (.sm3cf (c.extractLsb' 8 16))) ∧
    (c &&& 0xFF0000FF#32 ≠ 0x00000001#32 → c &&& 0xFF0000FF#32 ≠ 0x00000002#32 →
      c &&& 0xFF0000FF#32 ≠ 0x00000003#32 → c &&& 0xFF0000FF#32 ≠ 0x00000004#32 → decode c = .illegal)

/-- Words written out from the format (rules R49, R50, R57; 95_test_vectors.md V16). -/
def Obligations.SpecWordsDecode : Prop :=
  decode 0x00000001#32 = .command (.hash256 0x0000#16) ∧
  decode 0x00ABCD02#32 = .command (.hash128 0xABCD#16) ∧
  decode 0x00FFFF03#32 = .command (.fold 0xFFFF#16) ∧
  decode 0x00000004#32 = .command (.sm3cf 0x0000#16) ∧
  decode 0x00000000#32 = .illegal ∧ decode 0x00000005#32 = .illegal ∧ decode 0x000000FF#32 = .illegal ∧
  decode 0x00001200#32 = .illegal ∧ decode 0x01000001#32 = .illegal ∧ decode 0x80000003#32 = .illegal ∧
  decode 0xFFFFFFFF#32 = .illegal ∧ decode 0x00000081#32 = .illegal

/-- `RSV` must be 0 (rule R52): a word with any `RSV` bit set is illegal whatever the rest of it holds, a legal word has
the eight bits zero, and FINFO's use of those positions for the beat index leaves the other 24 bits the command's. -/
def Obligations.ReservedBitsMustBeZero : Prop :=
  (∀ (c : Word) (i : Nat), i < 8 → c.getLsbD (24 + i) = true → decode c = .illegal) ∧
  (∀ c : Word, legal c = true → c.extractLsb' 24 8 = 0#8) ∧
  (∀ (n : BitVec 7) (c : Word),
    (frameInfo n c).extractLsb' 24 8 = n.setWidth 8 ∧ (frameInfo n c).extractLsb' 0 24 = c.extractLsb' 0 24)

/-- The line `M tag=t` assembles to the word `(t << 8) or OPC(M)`, which is read as that command with that tag (rule R60). -/
def Obligations.ScriptLineAssemblesToItsCommand : Prop :=
  ∀ (op : Op) (t : Nat), (ScriptLine.command op t).wf = true →
    scriptWords [.command op t] = [assembleCommand op t] ∧
    decode (assembleCommand op t) = .command (op.instr (BitVec.ofNat 16 t))

/-! ### The commands' transfers (spec/42_digest_engine.md rule R99) -/

/-- Where the guard of `AcceptCmd` holds, each command goes on to the one state the rule gives: its word is taken, the F
slot holds its job, `ACC` is `0^64`, and everything else is as before. -/
def Obligations.EachCommandStartsItsJob : Prop :=
  ∀ (s : State) (tag : BitVec 16), s.rst = false → s.fault = false → s.fSlot.busy = false →
    exec (.hash256 tag) s = .next { s with
      cmd := s.cmd.drop 1, acc := Vector.replicate 64 0#8,
      fSlot := { busy := true, op := 0x01#8, tag := tag, cmd := 0x00#8 ++ tag ++ 0x01#8, cnt := 0#7 } } ∧
    exec (.hash128 tag) s = .next { s with
      cmd := s.cmd.drop 1, acc := Vector.replicate 64 0#8,
      fSlot := { busy := true, op := 0x02#8, tag := tag, cmd := 0x00#8 ++ tag ++ 0x02#8, cnt := 0#7 } } ∧
    exec (.fold tag) s = .next { s with
      cmd := s.cmd.drop 1, acc := Vector.replicate 64 0#8,
      fSlot := { busy := true, op := 0x03#8, tag := tag, cmd := 0x00#8 ++ tag ++ 0x03#8, cnt := 0#7 } } ∧
    exec (.sm3cf tag) s = .next { s with
      cmd := s.cmd.drop 1, acc := Vector.replicate 64 0#8,
      fSlot := { busy := true, op := 0x04#8, tag := tag, cmd := 0x00#8 ++ tag ++ 0x04#8, cnt := 0#7 } }

/-- Where the command cannot be transferred, it waits: `exec` changes nothing and the word is not taken. So it is after a
fault and while the F slot is busy (rules R99, R134), and while `rst` is 1, when no transfer happens (rule R136); the machine
then takes Reset and never reaches `exec`. -/
def Obligations.CommandWaitsWhileNotReady : Prop :=
  ∀ (i : Instr) (s : State), (s.rst = true ∨ s.fault = true ∨ s.fSlot.busy = true) → exec i s = .next s

/-- The frame of the four commands: whatever their guard, only the F slot, `ACC` and the command stream may change; the S
slot, the hidden registers, the queue, the fault record, the other ports, the configuration and the agenda do not. -/
def Obligations.CommandsLeaveTheRestUnchanged : Prop :=
  ∀ (i : Instr) (s t : State), exec i s = .next t →
    t.sSlot = s.sSlot ∧ t.sm3 = s.sm3 ∧ t.oq = s.oq ∧ t.fault = s.fault ∧ t.cause = s.cause ∧ t.finfo = s.finfo ∧
    t.cfg = s.cfg ∧ t.rst = s.rst ∧ t.beats = s.beats ∧ t.outReady = s.outReady ∧ t.delivered = s.delivered ∧
    t.agenda = s.agenda ∧ (t.cmd = s.cmd ∨ t.cmd = s.cmd.drop 1)

/-- A step runs the decoded command: when the word offered reads as `i` and its transfer is the next move, the step is
`exec i`; so it is when no agenda stands and the transfer is the first step enabled (the agenda and that order are the
model's own, notes/assumptions/2.md). -/
def Obligations.StepRunsTheDecodedCommand : Prop :=
  (∀ (s : State) (c : Word) (cs : List Word) (ms : List Move) (i : Instr),
    s.rst = false → s.agenda = .engine .acceptCmd :: ms → s.cmd = c :: cs → decode c = .command i →
    step s = exec i { s with agenda := ms }) ∧
  (∀ (s : State) (c : Word) (cs : List Word) (i : Instr),
    s.rst = false → s.agenda = [] → firstEnabled s = some .acceptCmd → s.cmd = c :: cs → decode c = .command i →
    step s = exec i s)

/-! ### The steps (spec/42_digest_engine.md rules R99 to R106) -/

/-- Step `AcceptCmd(c)` (rule R99), with the guard, the legal word's effect, the illegal word's, and no effect where the
guard does not hold. -/
def Obligations.AcceptCmdStep : Prop :=
  ∀ (s : State) (c : Word) (cs : List Word), s.rst = false → s.cmd = c :: cs →
    (s.fault = false → s.fSlot.busy = false → legal c = true →
      engineStep .acceptCmd s = .next { s with
        cmd := cs, acc := zeroBytes 64,
        fSlot := { busy := true, op := c.extractLsb' 0 8, tag := c.extractLsb' 8 16, cmd := c, cnt := 0 } }) ∧
    (s.fault = false → s.fSlot.busy = false → legal c = false →
      engineStep .acceptCmd s = .next { s with cmd := cs, fault := true, cause := 1#4, finfo := c }) ∧
    (s.fault = true ∨ s.fSlot.busy = true → engineStep .acceptCmd s = .next s)

/-- `ILLCMD` (rule R122): an illegal word taken is consumed, the fault is recorded with cause 1 and the word, and nothing
else changes: no job, `ACC` and the F slot not written, no beat taken, no record. The rule's four example words are illegal. -/
def Obligations.IllegalWordRaisesIllcmd : Prop :=
  (legal 0x00000000#32 = false ∧ legal 0x00000005#32 = false ∧ legal 0x01000001#32 = false ∧ legal 0xFFFFFFFF#32 = false) ∧
  ∀ (s : State) (c : Word) (cs : List Word) (ms : List Move),
    s.rst = false → s.fault = false → s.fSlot.busy = false → s.agenda = .engine .acceptCmd :: ms →
    s.cmd = c :: cs → legal c = false →
    step s = .next { s with agenda := ms, cmd := cs, fault := true, cause := 1#4, finfo := c }

/-- Step `AcceptBeat(d, last)` (rule R100) for a job with a legal opcode: the guard, the effect on a properly framed beat,
the FRAME fault on any other, and no effect where the guard does not hold. -/
def Obligations.AcceptBeatStep : Prop :=
  ∀ (s : State) (b : Beat) (bs : List Beat) (op : Op), s.rst = false → s.beats = b :: bs → s.fSlot.op = op.code →
    (s.fault = false → s.fSlot.busy = true → s.fSlot.cnt.toNat < beatsOf op →
      (b.last = true ↔ s.fSlot.cnt.toNat = beatsOf op - 1) →
      engineStep .acceptBeat s = .next { s with
        beats := bs, acc := xorBytes s.acc b.data, fSlot := { s.fSlot with cnt := s.fSlot.cnt + 1 } }) ∧
    (s.fault = false → s.fSlot.busy = true → s.fSlot.cnt.toNat < beatsOf op →
      ¬(b.last = true ↔ s.fSlot.cnt.toNat = beatsOf op - 1) →
      engineStep .acceptBeat s = .next { s with
        beats := bs, fault := true, cause := 2#4,
        finfo := s.fSlot.cnt.setWidth 8 ++ s.fSlot.cmd.extractLsb' 0 24,
        fSlot := { s.fSlot with busy := false } }) ∧
    (s.fault = true ∨ s.fSlot.busy = false ∨ beatsOf op ≤ s.fSlot.cnt.toNat → engineStep .acceptBeat s = .next s)

/-- `FRAME` (rule R123): the two ways there, `last` too early and no `last` on the final beat. The beat is consumed and not
folded, the job is dropped, cause 2 and `{n[7:0], F.cmd[23:0]}` are recorded, and nothing else changes. A one-beat job can
only miss its `last`. -/
def Obligations.MisframedBeatRaisesFrame : Prop :=
  ∀ (s : State) (b : Beat) (bs : List Beat) (ms : List Move) (op : Op),
    s.rst = false → s.fault = false → s.fSlot.busy = true → s.fSlot.op = op.code → s.beats = b :: bs →
    s.agenda = .engine .acceptBeat :: ms →
    ((b.last = true ∧ s.fSlot.cnt.toNat < beatsOf op - 1) ∨ (b.last = false ∧ s.fSlot.cnt.toNat = beatsOf op - 1)) →
    step s = .next { s with
      agenda := ms, beats := bs, fault := true, cause := 2#4,
      finfo := s.fSlot.cnt.setWidth 8 ++ s.fSlot.cmd.extractLsb' 0 24,
      fSlot := { s.fSlot with busy := false } } ∧
    (op = .sm3cf → b.last = false ∧ s.fSlot.cnt = 0#7)

/-- Step `Advance` (rule R101) for a job with a legal opcode: guard and effect. -/
def Obligations.AdvanceStep : Prop :=
  ∀ (s : State) (op : Op), s.rst = false → s.fSlot.op = op.code →
    (s.fSlot.busy = true → s.fSlot.cnt.toNat = beatsOf op → s.sSlot.busy = false →
      engineStep .advance s = .next { s with
        sSlot := { busy := true, op := s.fSlot.op, tag := s.fSlot.tag, blk := s.acc },
        fSlot := { s.fSlot with busy := false } }) ∧
    (s.fSlot.busy = false ∨ s.fSlot.cnt.toNat ≠ beatsOf op ∨ s.sSlot.busy = true → engineStep .advance s = .next s)

/-- Step `Retire` (rules R102, R107) for a job with a legal opcode: guard, the record for each opcode, the slot freed, and
everything but the hidden registers as before; no fault bit is looked at (rule R125). -/
def Obligations.RetireStep : Prop :=
  ∀ (s : State) (op : Op), s.rst = false → s.sSlot.op = op.code →
    (s.sSlot.busy = true → s.oq.length < s.cfg.outDepth →
      ∃ core : Sm3Core, engineStep .retire s = .next { s with
        sSlot := { s.sSlot with busy := false },
        sm3 := core,
        oq := s.oq ++ [{
          tag := s.sSlot.tag
          len := match op with | .hash256 => 32#7 | .hash128 => 16#7 | .fold => 64#7 | .sm3cf => 32#7
          data := match op with
            | .hash256 => padTo64 (ser256 (padFinish s.cfg.padMode (cf iv s.sSlot.blk)))
            | .hash128 => padTo64 (bytesOf (ser256 (padFinish s.cfg.padMode (cf iv s.sSlot.blk))) 0 16)
            | .fold => s.sSlot.blk
            | .sm3cf => padTo64 (ser256 (cf iv s.sSlot.blk)) }] }) ∧
    (s.sSlot.busy = false ∨ s.cfg.outDepth ≤ s.oq.length → engineStep .retire s = .next s)

/-- Step `Deliver` (rule R103): with a record queued and the host ready, the host receives the head record and the queue
loses it; with no record, or a host that is not ready, nothing changes. No fault bit is looked at (rule R125). -/
def Obligations.DeliverStep : Prop :=
  ∀ s : State, s.rst = false →
    (∀ (r : Record) (rs : List Record), s.oq = r :: rs → s.outReady = true →
      engineStep .deliver s = .next { s with oq := rs, delivered := s.delivered ++ [r] }) ∧
    (s.oq = [] ∨ s.outReady = false → engineStep .deliver s = .next s)

/-- Step `Reset` (rules R104, R136): while `rst` is 1, whatever step the engine would take and whatever its state, the slots
become free, the queue empty, FAULT, CAUSE and FINFO zero; no transfer happens and none is offered; the configuration is
not touched. -/
def Obligations.ResetStep : Prop :=
  ∀ (s : State) (e : EngineStep), s.rst = true →
    (s.cmdReady = false ∧ s.inReady = false ∧ s.outValid = false) ∧
    ∃ t : State, engineStep e s = .next t ∧
      t.fSlot.busy = false ∧ t.sSlot.busy = false ∧ t.oq = [] ∧ t.fault = false ∧ t.cause = 0#4 ∧ t.finfo = 0#32 ∧
      t.status = 0x00#8 ∧ t.cfg = s.cfg ∧ t.cmd = s.cmd ∧ t.beats = s.beats ∧ t.delivered = s.delivered ∧
      t.rst = s.rst ∧ t.outReady = s.outReady ∧ t.agenda = s.agenda

/-- After reset the engine is idle and not faulted (rule R138): `status` and `finfo` are 0, a command can be taken, no beat
and no record; and whatever the host then offers, the only step that can be taken is a command's transfer. It is so of
`State.reset` and of the state any Reset step gives, once `rst` is low again. -/
def Obligations.AfterResetOnlyACommandIsTaken : Prop :=
  (State.reset.status = 0x00#8 ∧ State.reset.finfo = 0#32 ∧ State.reset.cmdReady = true ∧
    State.reset.inReady = false ∧ State.reset.outValid = false) ∧
  (∀ (words : List Word) (beats : List Beat) (ready : Bool) (e : EngineStep),
    enabled { State.reset with cmd := words, beats := beats, outReady := ready } e = true → e = .acceptCmd) ∧
  (∀ (s t : State) (e : EngineStep), s.rst = true → engineStep e s = .next t →
    ({ t with rst := false }).status = 0x00#8 ∧ ({ t with rst := false }).finfo = 0#32 ∧
    ({ t with rst := false }).cmdReady = true ∧ ({ t with rst := false }).inReady = false ∧
    ({ t with rst := false }).outValid = false ∧
    ∀ next : EngineStep, enabled { t with rst := false } next = true → next = .acceptCmd)

/-- The host's moves (rule R106), each with what it sets: the level of `rst`, what is offered on the command stream, what is
offered on the data-in stream, the level of `out_ready`. Its own port takes that value, the move is used up, and no state of
the engine and no other port changes. -/
def Obligations.HostMovesOnlyItsPorts : Prop :=
  ∀ (s : State) (ms : List Move),
    (∀ level : Bool, s.agenda = .host (.driveRst level) :: ms → step s = .next { s with rst := level, agenda := ms }) ∧
    (∀ words : List Word, s.agenda = .host (.driveCmd words) :: ms → step s = .next { s with cmd := words, agenda := ms }) ∧
    (∀ beats : List Beat, s.agenda = .host (.driveIn beats) :: ms → step s = .next { s with beats := beats, agenda := ms }) ∧
    (∀ level : Bool, s.agenda = .host (.driveOutReady level) :: ms →
      step s = .next { s with outReady := level, agenda := ms })

/-! ### Status and faults (spec/10_state.md section 5, spec/60_exceptions.md) -/

/-- The fields of `STATUS` (rule R23): bit 0 is BUSY, 1 exactly when a slot is busy or a record is queued; bit 1 is FAULT;
bits 3:2 are 0; bits 7:4 are CAUSE. -/
def Obligations.StatusFields : Prop :=
  ∀ s : State,
    (s.status.getLsbD 0 = true ↔ s.fSlot.busy = true ∨ s.sSlot.busy = true ∨ s.oq ≠ []) ∧
    s.status.getLsbD 1 = s.fault ∧ s.status.extractLsb' 2 2 = 0#2 ∧ s.status.extractLsb' 4 4 = s.cause

/-- Nothing but reset clears or changes a recorded fault (rules R23, R24, R126, R128): FAULT, CAUSE and FINFO are the same
after any step or host's move while `rst` is 0, and a reset step clears all three. -/
def Obligations.FaultStaysUntilReset : Prop :=
  (∀ s t : State, s.rst = false → s.fault = true → step s = .next t →
    t.fault = true ∧ t.cause = s.cause ∧ t.finfo = s.finfo) ∧
  (∀ (s : State) (e : EngineStep), s.rst = true →
    ∃ t, engineStep e s = .next t ∧ t.fault = false ∧ t.cause = 0#4 ∧ t.finfo = 0#32)

/-- After a fault no command and no beat is taken (rules R125, R126): no step of the engine changes what the host offers on
the two input streams or starts a job, and `cmd_ready` and `in_ready` stay 0. -/
def Obligations.AfterAFaultNothingIsTaken : Prop :=
  ∀ (s t : State) (e : EngineStep), s.rst = false → s.fault = true → engineStep e s = .next t →
    s.cmdReady = false ∧ s.inReady = false ∧ t.cmdReady = false ∧ t.inReady = false ∧
    t.cmd = s.cmd ∧ t.beats = s.beats ∧ (t.fSlot.busy = true → t.fSlot = s.fSlot)

/-- Configuration is not state (rule R26): no step, no command, no reset and no move of the host changes `PAD_MODE` or
`OUT_DEPTH`. -/
def Obligations.ConfigurationNeverChanges : Prop :=
  (∀ s t : State, step s = .next t → t.cfg = s.cfg) ∧
  (∀ (i : Instr) (s t : State), exec i s = .next t → t.cfg = s.cfg) ∧
  (∀ (e : EngineStep) (s t : State), engineStep e s = .next t → t.cfg = s.cfg)

/-! ### Invariants and whole-machine rules (spec/10_state.md rule R30) -/

/-- The invariant holds right after reset: rule R30 (a) to (e), and the ranges that rules R9, R17, R20, R22 and R120 state. The
range of the round and pass counters, which rule R27 leaves unspecified after reset, holds by the model's choice of zero
(notes/assumptions/3.md). -/
def Obligations.InvHoldsAfterReset : Prop := EngineInv State.reset

/-- Every move, reset and the host's moves among them, keeps the invariant, from every state that has it: rule R30 (a) to (e),
and the ranges that rules R9, R14, R17, R20, R22, R56 and R120 state. The range of the round and pass counters rests on the
model's choices: after a Reset step, which leaves them unspecified (rules R27, R136), on its zeros (notes/assumptions/3.md),
and after a Retire step on the values it keeps there (notes/assumptions/4.md). -/
def Obligations.EveryStepKeepsInv : Prop := ∀ s t : State, EngineInv s → step s = .next t → EngineInv t

/-- No failure of the machine itself: from every state that has the invariant, the step goes on (rules R92, R119). -/
def Obligations.EveryStepGoesOn : Prop := ∀ s : State, EngineInv s → ∃ t, step s = .next t

/-- At most `OUT_DEPTH + 2` jobs are in flight, and as soon as a job is, BUSY is 1 (rules R23, R30 (f), R115). -/
def Obligations.JobsInFlightAreBounded : Prop :=
  ∀ s : State, EngineInv s → (inFlight s).length ≤ s.cfg.outDepth + 2 ∧ (s.busy = true ↔ inFlight s ≠ [])

/-- Jobs leave in the order their commands came (rules R30 (f), R44): the tags of the records taken, followed by those of
the jobs in flight, are changed by a step in three ways only: a command's transfer adds its tag at the end, a framing
fault drops the last, and nothing else does anything. -/
def Obligations.JobsKeepCommandOrder : Prop :=
  ∀ (s t : State) (e : EngineStep), EngineInv s → s.rst = false → engineStep e s = .next t →
    t.delivered.map (·.tag) ++ inFlight t = s.delivered.map (·.tag) ++ inFlight s ∨
    (∃ (c : Word) (i : Instr), s.cmd = c :: t.cmd ∧ decode c = .command i ∧
      t.delivered.map (·.tag) ++ inFlight t = s.delivered.map (·.tag) ++ inFlight s ++ [i.tag]) ∨
    (s.fault = false ∧ t.fault = true ∧ t.cause = 2#4 ∧ t.beats = s.beats.drop 1 ∧
      t.delivered.map (·.tag) ++ inFlight t ++ [s.fSlot.tag] = s.delivered.map (·.tag) ++ inFlight s)

/-- A record offered stays offered, the same, until the host takes it (rules R33, R105): while `rst` is 0 every move leaves
the head of the queue where it is or hands it to the host. -/
def Obligations.OfferedRecordStaysUntilTaken : Prop :=
  ∀ (s t : State) (r : Record), s.rst = false → s.oq.head? = some r → step s = .next t →
    (t.oq.head? = some r ∧ t.delivered = s.delivered) ∨ (t.oq = s.oq.drop 1 ∧ t.delivered = s.delivered ++ [r])

/-- No rule reads an unspecified register (rules R14, R16, R21, R27): the fields of a free slot, `ACC` while no job folds
and the hidden registers of the SM3 stage have no influence on any step. -/
def Obligations.UnspecifiedRegistersAreNeverRead : Prop :=
  ∀ s t : State, readable s = readable t → readableOutcome (step s) = readableOutcome (step t)

/-- Too few beats is a wait (rule R134): while the job in the F slot lacks beats, none is offered and no older job is
inside, the machine stays as it is for ever, whatever command words are offered; it is neither faulted nor finished. -/
def Obligations.TooFewBeatsIsAWait : Prop :=
  ∀ s : State, s.rst = false → s.agenda = [] → waitsForBeats s → s.sSlot.busy = false → s.oq = [] →
    (∀ n : Nat, run n s = .next s) ∧ s.fault = false ∧ ¬finished s ∧ s.cmdReady = false

/-! ### What the engine promises its host (spec/42_digest_engine.md section 4) -/

/-- Results do not depend on the order of steps, on back-pressure or on other jobs, and faults are precise (rules R11, R44,
R45, R108, R115, R125, R127): the whole list of records the host has or will have, each a function of its own command word
and its own beats, is changed by no step. -/
def Obligations.PromisedRecordsNeverChange : Prop :=
  ∀ s t : State, EngineInv s → s.rst = false → inputsHeld s = true → step s = .next t → promised t = promised s

/-- Every run ends, with a host that takes records (rules R108, R147): after finitely many steps in the order the model takes
without an agenda (notes/assumptions/2.md), every promised record has been taken, none is inside, and no step is enabled. -/
def Obligations.EveryPromisedRecordIsDelivered : Prop :=
  ∀ s : State, EngineInv s → s.rst = false → s.agenda = [] → s.outReady = true →
    ∃ (n : Nat) (t : State), run n s = .next t ∧
      t.delivered = promised s ∧ t.oq = [] ∧ t.sSlot.busy = false ∧ firstEnabled t = none

/-- A finished run (rules R46, R114): from an idle engine, along any order of steps and any readiness of the host, with the
inputs held, an engine that ends finished has delivered exactly one record for each command word that was offered, those it
promised, and `STATUS.BUSY` is 0. -/
def Obligations.FinishedRunHasOneRecordPerCommand : Prop :=
  ∀ (s t : State) (n : Nat), EngineInv s → s.rst = false → s.fault = false → s.busy = false →
    (∀ m ∈ s.agenda, (∃ e, m = .engine e) ∨ ∃ level, m = .host (.driveOutReady level)) →
    run n s = .next t → finished t →
    t.delivered = s.delivered ++ expected s.cfg.padMode s.cmd s.beats ∧
    t.delivered.length = s.delivered.length + s.cmd.length ∧ t.busy = false

/-- The batch contract (rules R62, R108, R109): what an engine owes for a batch of `N >= 0` digest jobs over blocks is `N`
records, the `i`-th with the tag of the `i`-th command and the digest of the `i`-th block alone. -/
def Obligations.BatchOwesEachDigest : Prop :=
  ∀ (bits : DigestBits) (pad : PadMode) (t : Nat) (blocks : List Block),
    expected pad (scriptWords (hashBatch bits t blocks)) (scriptBeats (hashBatch bits t blocks)) =
      batchRecords bits pad t blocks

/-- The parallel contract (rules R63, R112): for every number of workers, the records of all engines, engine by engine, are
those of one engine given the whole batch. -/
def Obligations.ParallelEqualsBatch : Prop :=
  ∀ (bits : DigestBits) (pad : PadMode) (workers : Int) (blocks : List Block),
    ((hashPar bits workers blocks).flatMap fun lines => expected pad (scriptWords lines) (scriptBeats lines)) =
      batchRecords bits pad 0 blocks

/-- The parallel contract for any partition (rule R112): however the indices are divided among engines and in whatever order
each engine is given its own, each engine owes, in the order of its indices, the whole record of each: that index as the tag,
the length, the digest of that block alone. So all engines together owe the records of the whole batch. -/
def Obligations.AnyPartitionGivesEachDigest : Prop :=
  ∀ (bits : DigestBits) (pad : PadMode) (blocks : List Block) (parts : List (List Nat)),
    parts.flatten.Perm (List.range blocks.length) →
    (∀ part ∈ parts,
      expected pad (scriptWords (hashIndices bits blocks part)) (scriptBeats (hashIndices bits blocks part)) =
        indexRecords bits pad blocks part) ∧
    (parts.flatMap fun part => expected pad (scriptWords (hashIndices bits blocks part))
      (scriptBeats (hashIndices bits blocks part))).Perm (batchRecords bits pad 0 blocks)

/-- The join (rules R112, R113): idle engines with fresh records are offered the batch, each its own indices in any order;
whatever schedule they run in and whenever their hosts are ready, once the cluster has joined (every engine has
`STATUS.BUSY = 0` and as many records were taken from each as commands were sent to it), each engine has delivered exactly the
records of its own indices, in order, each with the digest of its own block, under that engine's `PAD_MODE`. -/
def Obligations.JoinGivesEveryDigest : Prop :=
  ∀ (bits : DigestBits) (blocks : List Block) (parts : List (List Nat)) (engines after : Cluster) (schedule : List Nat),
    (∀ (w : Nat) (s : State) (part : List Nat), engines[w]? = some s → parts[w]? = some part →
      EngineInv s ∧ s.rst = false ∧ s.fault = false ∧ s.busy = false ∧ s.delivered = [] ∧
      s.cmd = scriptWords (hashIndices bits blocks part) ∧ s.beats = scriptBeats (hashIndices bits blocks part) ∧
      ∀ m ∈ s.agenda, (∃ e, m = .engine e) ∨ ∃ level, m = .host (.driveOutReady level)) →
    clusterRun engines schedule = .next after → joined after (parts.map List.length) = true →
    ∀ (w : Nat) (s t : State) (part : List Nat), engines[w]? = some s → after[w]? = some t → parts[w]? = some part →
      t.delivered = indexRecords bits s.cfg.padMode blocks part

/-- The number of engines (rules R9, R110): it is at least 1, the default is one engine, a cluster right after reset has
`NUM_ENGINES` of them, each with the configuration it was built with, and no run changes how many there are or any engine's
configuration. Each engine of a cluster right after reset meets the invariant (`EngineInv`: rule R30 (a) to (e) with the ranges
of R9, R17, R20, R22, R120) when its configuration is well formed; the range of the round and pass counters, which rule R27
leaves unspecified after reset, holds there by the model's choice of zero (notes/assumptions/3.md). (That engines may differ in
configuration is the model's choice too, notes/assumptions/14.md.) -/
def Obligations.NumberOfEnginesIsFixed : Prop :=
  (∀ (h : HostConfig) (c : Config), (Cluster.reset h c).hostConfig = h ∧ (Cluster.reset h c).wf = h.wf ∧
    (h.wf = true ↔ 1 ≤ h.numEngines) ∧ ∀ s ∈ Cluster.reset h c, s.cfg = c ∧ (c.wf = true → EngineInv s)) ∧
  Cluster.reset HostConfig.default Config.default = [State.reset] ∧
  (∀ (engines after : Cluster) (schedule : List Nat), clusterRun engines schedule = .next after →
    after.hostConfig = engines.hostConfig ∧ after.map (·.cfg) = engines.map (·.cfg))

/-- The partition policy (rule R111): each of the indices 0 to `M-1` lies in the range of exactly one worker, no range is
longer than `ceil(M/T_eff)`, and `T <= 0` is one worker with everything. -/
def Obligations.PartitionGivesEachIndexOnce : Prop :=
  ∀ (m : Nat) (t : Int),
    (∀ i, i < m → ∃ w, w < effectiveWorkers t ∧ (workerRange m t w).1 ≤ i ∧ i < (workerRange m t w).2 ∧
      ∀ v, v < effectiveWorkers t → (workerRange m t v).1 ≤ i → i < (workerRange m t v).2 → v = w) ∧
    (∀ w, (workerRange m t w).2 ≤ m ∧ (workerRange m t w).2 - (workerRange m t w).1 ≤ chunkSize m t) ∧
    (t ≤ 0 → effectiveWorkers t = 1 ∧ workerRange m t 0 = (0, m))

/-- Engines share nothing (rules R110, R132): along any schedule, an engine that takes no move is unchanged, and an engine's
own state is what it would be with its moves alone. -/
def Obligations.EnginesDoNotInteract : Prop :=
  ∀ (engines after : Cluster) (schedule : List Nat) (w : Nat) (s : State), engines[w]? = some s →
    clusterRun engines schedule = .next after →
    ∃ t, after[w]? = some t ∧ run (schedule.count w) s = .next t

/-! ### Whole jobs (spec/40 to 42, the pseudocode of rules R70, R91, R97, R98) -/

/-- `HASH256` (rule R97), the whole of its pseudocode run through: the command starts the job; its 64 beats, the hand-over
and the retire step, taken next, queue `(tag, 32, Digest256(block))` and leave nothing else changed. -/
def Obligations.Hash256GivesTheDigest : Prop :=
  ∀ (s : State) (tag : BitVec 16) (block : Block) (cs : List Word) (bs : List Beat) (ms : List Move),
    s.rst = false → s.fault = false → s.fSlot.busy = false → s.sSlot.busy = false → s.oq.length < s.cfg.outDepth →
    s.cmd = encode (.hash256 tag) :: cs → s.beats = blockBeats block ++ bs → s.agenda = jobMoves 64 ++ ms →
    ∃ (t : State) (core : Sm3Core), exec (.hash256 tag) s = .next t ∧
      run 66 t = .next { s with
        cmd := cs, beats := bs, agenda := ms, acc := foldBlock block,
        fSlot := { busy := false, op := 0x01#8, tag := tag, cmd := encode (.hash256 tag), cnt := 64#7 },
        sSlot := { busy := false, op := 0x01#8, tag := tag, blk := foldBlock block },
        sm3 := core,
        oq := s.oq ++ [{ tag := tag, len := 32#7, data := padTo64 (digest256 s.cfg.padMode block) }] }

/-- `HASH128` (rules R96, R98), run through: `(tag, 16, Digest128(block))` is queued. -/
def Obligations.Hash128GivesTheTruncatedDigest : Prop :=
  ∀ (s : State) (tag : BitVec 16) (block : Block) (cs : List Word) (bs : List Beat) (ms : List Move),
    s.rst = false → s.fault = false → s.fSlot.busy = false → s.sSlot.busy = false → s.oq.length < s.cfg.outDepth →
    s.cmd = encode (.hash128 tag) :: cs → s.beats = blockBeats block ++ bs → s.agenda = jobMoves 64 ++ ms →
    ∃ (t : State) (core : Sm3Core), exec (.hash128 tag) s = .next t ∧
      run 66 t = .next { s with
        cmd := cs, beats := bs, agenda := ms, acc := foldBlock block,
        fSlot := { busy := false, op := 0x02#8, tag := tag, cmd := encode (.hash128 tag), cnt := 64#7 },
        sSlot := { busy := false, op := 0x02#8, tag := tag, blk := foldBlock block },
        sm3 := core,
        oq := s.oq ++ [{ tag := tag, len := 16#7, data := padTo64 (digest128 s.cfg.padMode block) }] }

/-- `FOLD` (rule R70), run through: `(tag, 64, Fold(block))` is queued, whatever `PAD_MODE` is. -/
def Obligations.FoldGivesTheIntermediate : Prop :=
  ∀ (s : State) (tag : BitVec 16) (block : Block) (cs : List Word) (bs : List Beat) (ms : List Move),
    s.rst = false → s.fault = false → s.fSlot.busy = false → s.sSlot.busy = false → s.oq.length < s.cfg.outDepth →
    s.cmd = encode (.fold tag) :: cs → s.beats = blockBeats block ++ bs → s.agenda = jobMoves 64 ++ ms →
    ∃ (t : State) (core : Sm3Core), exec (.fold tag) s = .next t ∧
      run 66 t = .next { s with
        cmd := cs, beats := bs, agenda := ms, acc := foldBlock block,
        fSlot := { busy := false, op := 0x03#8, tag := tag, cmd := encode (.fold tag), cnt := 64#7 },
        sSlot := { busy := false, op := 0x03#8, tag := tag, blk := foldBlock block },
        sm3 := core,
        oq := s.oq ++ [{ tag := tag, len := 64#7, data := foldBlock block }] }

/-- `SM3CF` (rule R91), run through: `(tag, 32, ser256(CF(IV, d)))` is queued for the one beat `d`, whatever `PAD_MODE` is. -/
def Obligations.Sm3cfGivesTheCompression : Prop :=
  ∀ (s : State) (tag : BitVec 16) (d : Bytes 64) (cs : List Word) (bs : List Beat) (ms : List Move),
    s.rst = false → s.fault = false → s.fSlot.busy = false → s.sSlot.busy = false → s.oq.length < s.cfg.outDepth →
    s.cmd = encode (.sm3cf tag) :: cs → s.beats = messageBeat d :: bs → s.agenda = jobMoves 1 ++ ms →
    ∃ (t : State) (core : Sm3Core), exec (.sm3cf tag) s = .next t ∧
      run 3 t = .next { s with
        cmd := cs, beats := bs, agenda := ms, acc := d,
        fSlot := { busy := false, op := 0x04#8, tag := tag, cmd := encode (.sm3cf tag), cnt := 1#7 },
        sSlot := { busy := false, op := 0x04#8, tag := tag, blk := d },
        sm3 := core,
        oq := s.oq ++ [{ tag := tag, len := 32#7, data := padTo64 (ser256 (cf iv d)) }] }

/-! ### The fold (spec/40_xor_fold.md) -/

/-- The running form of the fold (rule R66): XORing the 64 lanes into `0^64`, in rising order or in any other, gives `Fold`. -/
def Obligations.RunningFoldEqualsFold : Prop :=
  ∀ (block : Block) (order : List Nat), order.Perm (List.range 64) →
    order.foldl (fun acc l => xorBytes acc (laneOf block l)) (zeroBytes 64) = foldBlock block

/-- `Fold` is linear over XOR and maps zero to zero (rule R67), with its three consequences: (a) flipping bits of one byte
of the block, at lane position `k` of any lane, flips exactly those bits of byte `k` of the intermediate; (b) the same bits
flipped at the same lane position of two lanes leave the intermediate, and so the digest, unchanged; (c) so does any
permutation of the 64 lanes. -/
def Obligations.FoldIsLinear : Prop :=
  (∀ x y : Block, foldBlock (xorBytes x y) = xorBytes (foldBlock x) (foldBlock y)) ∧
  foldBlock (zeroBytes 4096) = zeroBytes 64 ∧
  (∀ (x : Block) (l k : Nat) (m : Byte), l < 64 → k < 64 → ∀ i, i < 64 →
    byteAt (foldBlock (flipByte x (64 * l + k) m)) i =
      if i = k then byteAt (foldBlock x) i ^^^ m else byteAt (foldBlock x) i) ∧
  (∀ (x : Block) (l l' k : Nat) (m : Byte), l < 64 → l' < 64 → k < 64 →
    foldBlock (flipByte (flipByte x (64 * l + k) m) (64 * l' + k) m) = foldBlock x ∧
    ∀ pad, digest256 pad (flipByte (flipByte x (64 * l + k) m) (64 * l' + k) m) = digest256 pad x) ∧
  (∀ (x y : Block) (order : List Nat), order.Perm (List.range 64) →
    (∀ n k, n < 64 → k < 64 → byteAt y (64 * n + k) = byteAt x (64 * order.getD n 0 + k)) → foldBlock y = foldBlock x)

/-- Cancellation (rule R68): a lane position at which every byte value occurs an even number of times among the 64 lanes
folds to `0x00`; so the all-zero block, the all-ones block and the pattern block `byte[i] = i mod 256` fold to `0^64` and
have the same digest. -/
def Obligations.FoldCancelsEvenOccurrences : Prop :=
  (∀ (block : Block) (k : Nat), k < 64 →
    (∀ v : Byte, ((List.range 64).countP fun l => byteAt block (64 * l + k) == v) % 2 = 0) →
    byteAt (foldBlock block) k = 0x00#8) ∧
  (∀ g : Generator, foldBlock g.block = zeroBytes 64) ∧
  (∀ (pad : PadMode) (g h : Generator), digest256 pad g.block = digest256 pad h.block)

/-! ### The SM3 core (spec/41_sm3_core.md) -/

/-- The known answer (rule R88): the compression of the padded block for "abc" from the IV. -/
def Obligations.KnownAnswer : Prop :=
  ser256 (cf iv (Vector.ofFn fun i : Fin 64 =>
      if i.val = 0 then 0x61#8 else if i.val = 1 then 0x62#8 else if i.val = 2 then 0x63#8
      else if i.val = 3 then 0x80#8 else if i.val = 63 then 0x18#8 else 0x00#8)) =
    #v[0x66, 0xc7, 0xf0, 0xf4, 0x62, 0xee, 0xed, 0xd9, 0xd1, 0xf2, 0xd4, 0x6b, 0xdc, 0x10, 0xe4, 0xe2,
       0x41, 0x67, 0xc4, 0x87, 0x5c, 0xf2, 0xf7, 0xa2, 0x29, 0x7d, 0xa0, 0x2b, 0x8f, 0x4b, 0xa8, 0xe0]

/-- The message expansion (rules R76, R79): the first 16 words are the block's big-endian words, and each of `W[16..67]` is
what the recurrence gives from the words before it. -/
def Obligations.ExpansionFollowsTheRecurrence : Prop :=
  ∀ b : Bytes 64,
    (∀ i, i < 16 → wordAt (expand b) i =
      byteAt b (4 * i) ++ byteAt b (4 * i + 1) ++ byteAt b (4 * i + 2) ++ byteAt b (4 * i + 3)) ∧
    (∀ j, 16 ≤ j → j ≤ 67 → wordAt (expand b) j =
      p1 (wordAt (expand b) (j - 16) ^^^ wordAt (expand b) (j - 9) ^^^ rotl32 (wordAt (expand b) (j - 3)) 15)
        ^^^ rotl32 (wordAt (expand b) (j - 13)) 7 ^^^ wordAt (expand b) (j - 6))

/-- The round-per-step realization gives the compression function (rule R90): after its 64 rounds, and not before, it
finishes, with `CF(V, B)`. -/
def Obligations.WindowRealizationEqualsCf : Prop :=
  ∀ (v : Words 8) (b : Bytes 64),
    windowFinish (windowRun 64 (windowStart v b)) = some (cf v b) ∧
    ∀ k, k < 64 → windowFinish (windowRun k (windowStart v b)) = none

/-- The hidden registers after a Retire step (rules R18, R20, R83 to R87, R102): for a job with a compression, `V` holds the
feed-forward of the last one and, serialized, is the queued record's data as far as its length; `A` to `H` are the registers
after round 63, `W` is the expansion of the last message block, `j` is 64, `p` is the number of compressions. For `FOLD`, `V` is
the IV, `p` is 0 and the rest is unchanged. (That the registers keep these values is the model's choice,
notes/assumptions/4.md.) -/
def Obligations.HiddenRegistersHoldTheResult : Prop :=
  ∀ (s : State) (op : Op), s.rst = false → s.sSlot.op = op.code → s.sSlot.busy = true → s.oq.length < s.cfg.outDepth →
    ∃ (t : State) (r : Record), engineStep .retire s = .next t ∧ t.oq = s.oq ++ [r] ∧
      (op ≠ .fold → ∀ i, i < r.len.toNat → byteAt r.data i = byteAt (ser256 t.sm3.v) i) ∧
      t.sm3 = match op, s.cfg.padMode with
        | .fold, _ => { s.sm3 with v := iv, p := 0#2 }
        | .sm3cf, _ | .hash256, .pad0 | .hash128, .pad0 =>
          { v := cf iv s.sSlot.blk, regs := allRounds (expand s.sSlot.blk) (startRegs iv), w := expand s.sSlot.blk,
            j := 64#7, p := 1#2 }
        | .hash256, .pad1 | .hash128, .pad1 =>
          { v := cf (cf iv s.sSlot.blk) padBlk, regs := allRounds (expand padBlk) (startRegs (cf iv s.sSlot.blk)),
            w := expand padBlk, j := 64#7, p := 2#2 }

/-- Serialization (rules R39 (a), R87): byte `4i + m` of `ser256(V)` is `V[i][31-8m : 24-8m]`, and loading the words back
gives `V`. -/
def Obligations.SerializationIsBigEndian : Prop :=
  ∀ v : Words 8,
    (∀ i m, i < 8 → m < 4 → byteAt (ser256 v) (4 * i + m) = (wordAt v i).extractLsb' (24 - 8 * m) 8) ∧
    (∀ i, i < 8 → be32 (ser256 v) i = wordAt v i)

/-- Rotation counts are taken modulo 32 (rule R89 (b)): rotation by 0 and by 32 is the identity, a count and the count 32
more rotate alike, rotations add, and no bit is lost: bit `i` goes to bit `(i + n) mod 32`. -/
def Obligations.RotationCountsAreModulo32 : Prop :=
  ∀ (x : Word) (n m : Nat),
    rotl32 x 0 = x ∧ rotl32 x 32 = x ∧ rotl32 x (n + 32) = rotl32 x n ∧
    rotl32 (rotl32 x n) m = rotl32 x (n + m) ∧
    ∀ i, i < 32 → (rotl32 x n).getLsbD ((i + n) % 32) = x.getLsbD i

/-- The permutations are linear over XOR and fix the all-zero and the all-ones word (rule R77). -/
def Obligations.PermutationsAreLinear : Prop :=
  (∀ x y : Word, p0 (x ^^^ y) = p0 x ^^^ p0 y ∧ p1 (x ^^^ y) = p1 x ^^^ p1 y) ∧
  p0 0 = 0 ∧ p1 0 = 0 ∧ p0 0xffffffff = 0xffffffff ∧ p1 0xffffffff = 0xffffffff

/-! ### Results and records (spec/20_memory.md, spec/42_digest_engine.md rule R96) -/

/-- The truncation law (rules R96, R98, R117): for both values of `PAD_MODE`, bytes 0 to 15 of the `HASH128` result are those
of the `HASH256` result of the same block, and its bytes 16 to 63 are zero. -/
def Obligations.TruncationLaw : Prop :=
  (∀ (pad : PadMode) (blk : Bytes 64) (i : Nat),
    (i < 16 → byteAt (result pad .hash128 blk) i = byteAt (result pad .hash256 blk) i) ∧
    (16 ≤ i → byteAt (result pad .hash128 blk) i = 0x00#8)) ∧
  (∀ (pad : PadMode) (block : Block) (i : Nat), i < 16 →
    byteAt (digest128 pad block) i = byteAt (digest256 pad block) i)

/-- The 512-bit ports (rules R35, R38): byte `k` is bits `8k+7 : 8k`, in both directions, and nothing is lost. -/
def Obligations.PortsCarryBytesInOrder : Prop :=
  (∀ (d : Bytes 64) (k : Nat), k < 64 → (toWires d).extractLsb' (8 * k) 8 = byteAt d k) ∧
  (∀ d : Bytes 64, ofWires (toWires d) = d) ∧
  (∀ w : BitVec 512, toWires (ofWires w) = w)
end

