-- ==== Sys2Proof/Laws/Bytes.lean ====
section
/-! SUPPORT. Byte strings and register files: what reading one element gives after each operation. -/

namespace Sys2Proof.Machine

theorem byteAt_of_lt {n i : Nat} (s : Bytes n) (h : i < n) : byteAt s i = s[i] := by simp [byteAt, h]

theorem byteAt_of_le {n i : Nat} (s : Bytes n) (h : n ≤ i) : byteAt s i = 0x00#8 := by
  simp [byteAt, Nat.not_lt.mpr h]

theorem wordAt_of_lt {n i : Nat} (x : Words n) (h : i < n) : wordAt x i = x[i] := by simp [wordAt, h]

/-- Two byte strings with equal bytes are equal. -/
theorem bytes_ext {n : Nat} {x y : Bytes n} (h : ∀ i, i < n → byteAt x i = byteAt y i) : x = y := by
  ext i hi : 1
  have := h i hi
  rwa [byteAt_of_lt x hi, byteAt_of_lt y hi] at this

theorem byteAt_ofFn {n i : Nat} (f : Fin n → Byte) (h : i < n) : byteAt (Vector.ofFn f) i = f ⟨i, h⟩ := by
  simp [byteAt, h]

@[simp] theorem byteAt_zeroBytes (n i : Nat) : byteAt (zeroBytes n) i = 0x00#8 := by
  by_cases h : i < n <;> simp [byteAt, zeroBytes, h]

@[simp] theorem byteAt_xorBytes {n : Nat} (x y : Bytes n) (i : Nat) :
    byteAt (xorBytes x y) i = byteAt x i ^^^ byteAt y i := by
  by_cases h : i < n <;> simp [byteAt, xorBytes, h]

theorem byteAt_padTo64 {n : Nat} (s : Bytes n) (i : Nat) :
    byteAt (padTo64 s) i = if i < 64 then byteAt s i else 0x00#8 := by
  by_cases h : i < 64
  · simp [padTo64, byteAt_ofFn _ h, h]
  · simp [h, byteAt_of_le _ (Nat.not_lt.mp h)]

theorem byteAt_bytesOf {n : Nat} (s : Bytes n) (a b i : Nat) :
    byteAt (bytesOf s a b) i = if i < b - a then byteAt s (a + i) else 0x00#8 := by
  by_cases h : i < b - a
  · simp [bytesOf, byteAt_ofFn _ h, h]
  · simp [h, byteAt_of_le _ (Nat.not_lt.mp h)]

theorem byteAt_laneOf (block : Block) (l : Nat) {k : Nat} (h : k < 64) :
    byteAt (laneOf block l) k = byteAt block (64 * l + k) := by simp [laneOf, byteAt_ofFn _ h]

/-- XOR with the zero string changes nothing. -/
@[simp] theorem xorBytes_zero {n : Nat} (x : Bytes n) : xorBytes x (zeroBytes n) = x :=
  bytes_ext fun i _ => by simp

@[simp] theorem zero_xorBytes {n : Nat} (x : Bytes n) : xorBytes (zeroBytes n) x = x :=
  bytes_ext fun i _ => by simp

/-- A byte string XORed with itself is zero: a lane XORed in twice is gone (rule R68). -/
@[simp] theorem xorBytes_self {n : Nat} (x : Bytes n) : xorBytes x x = zeroBytes n :=
  bytes_ext fun i _ => by simp

theorem xorBytes_assoc {n : Nat} (x y z : Bytes n) : xorBytes (xorBytes x y) z = xorBytes x (xorBytes y z) :=
  bytes_ext fun i _ => by simp [BitVec.xor_assoc]

theorem xorBytes_comm {n : Nat} (x y : Bytes n) : xorBytes x y = xorBytes y x :=
  bytes_ext fun i _ => by simp [BitVec.xor_comm]

theorem beatsOf_pos (op : Op) : 1 ≤ beatsOf op := by cases op <;> decide

theorem beatsOf_le (op : Op) : beatsOf op ≤ 64 := by cases op <;> decide

end Sys2Proof.Machine
end

