-- ==== Sys2Proof/Laws/Encoding.lean ====
section
/-! SUPPORT. The fields of a word and the word of the fields (spec/30_encoding.md rules R49, R50). -/

namespace Sys2Proof

@[simp] theorem Op.ofCode_code (op : Op) : Op.ofCode op.code = some op := by cases op <;> rfl

/-- A legal opcode value is the code of the opcode it is read as. -/
theorem Op.code_of_ofCode {c : BitVec 8} {op : Op} (h : Op.ofCode c = some op) : op.code = c := by
  unfold Op.ofCode at h
  split at h
  · cases h; simp_all [Op.code]
  · split at h
    · cases h; simp_all [Op.code]
    · split at h
      · cases h; simp_all [Op.code]
      · split at h
        · cases h; simp_all [Op.code]
        · cases h

@[simp] theorem Op.instr_op (op : Op) (t : BitVec 16) : (op.instr t).op = op := by cases op <;> rfl

@[simp] theorem Op.instr_tag (op : Op) (t : BitVec 16) : (op.instr t).tag = t := by cases op <;> rfl

@[simp] theorem Instr.op_instr_tag (i : Instr) : i.op.instr i.tag = i := by cases i <;> rfl

/-- The bits of a word assembled from fields (rule R49). -/
theorem FormatC.getLsbD_toWord (f : FormatC) (i : Nat) :
    f.toWord.getLsbD i =
      if i < 8 then f.opc.getLsbD i else if i - 8 < 16 then f.tag.getLsbD (i - 8) else f.rsv.getLsbD (i - 8 - 16) := by
  have low := BitVec.getLsbD_append (x := f.rsv ++ f.tag) (y := f.opc) (i := i)
  have high := BitVec.getLsbD_append (x := f.rsv) (y := f.tag) (i := i - 8)
  exact low.trans (by rw [high])

/-- The fields of a word assembled from fields are those fields. -/
@[simp] theorem FormatC.ofWord_toWord (f : FormatC) : FormatC.ofWord f.toWord = f := by
  obtain ⟨rsv, tag, opc⟩ := f
  simp only [FormatC.ofWord, FormatC.mk.injEq]
  refine ⟨?_, ?_, ?_⟩ <;>
  · apply BitVec.eq_of_getLsbD_eq
    intro i hi
    rw [BitVec.getLsbD_extractLsb', FormatC.getLsbD_toWord]
    have h1 : 24 + i - 8 - 16 = i := by omega
    have h2 : ¬ 24 + i - 8 < 16 := by omega
    simp [hi, h1, h2, show ¬ 24 + i < 8 by omega]

/-- The word of a word's fields is that word: no bit lies outside the three fields. -/
@[simp] theorem FormatC.toWord_ofWord (c : Word) : (FormatC.ofWord c).toWord = c := by
  apply BitVec.eq_of_getLsbD_eq
  intro i hi
  rw [FormatC.getLsbD_toWord]
  simp only [FormatC.ofWord, BitVec.getLsbD_extractLsb']
  by_cases h8 : i < 8
  · simp [h8]
  · by_cases h24 : i - 8 < 16
    · simp [h8, h24, show 8 + (i - 8) = i by omega]
    · simp [h8, h24, show i - 8 - 16 < 8 by omega, show 24 + (i - 8 - 16) = i by omega]

theorem commandWord_eq_encode (op : Op) (t : BitVec 16) : commandWord op t = encode (op.instr t) := by
  simp [commandWord, encode, Instr.fields]

theorem encode_eq_commandWord (i : Instr) : encode i = commandWord i.op i.tag := rfl

end Sys2Proof
end

