-- ==== Sys2Proof/Laws/State.lean ====
section
/-! SUPPORT. One lemma per field per named update of the state, each true by `rfl`: no later proof unfolds a record
update. -/

namespace Sys2Proof.Machine.State

variable (s : State)

/-! ### takeCmd -/

@[simp] theorem takeCmd_cfg : (s.takeCmd).cfg = s.cfg := rfl
@[simp] theorem takeCmd_fSlot : (s.takeCmd).fSlot = s.fSlot := rfl
@[simp] theorem takeCmd_acc : (s.takeCmd).acc = s.acc := rfl
@[simp] theorem takeCmd_sSlot : (s.takeCmd).sSlot = s.sSlot := rfl
@[simp] theorem takeCmd_sm3 : (s.takeCmd).sm3 = s.sm3 := rfl
@[simp] theorem takeCmd_oq : (s.takeCmd).oq = s.oq := rfl
@[simp] theorem takeCmd_fault : (s.takeCmd).fault = s.fault := rfl
@[simp] theorem takeCmd_cause : (s.takeCmd).cause = s.cause := rfl
@[simp] theorem takeCmd_finfo : (s.takeCmd).finfo = s.finfo := rfl
@[simp] theorem takeCmd_rst : (s.takeCmd).rst = s.rst := rfl
@[simp] theorem takeCmd_cmd : (s.takeCmd).cmd = s.cmd.drop 1 := rfl
@[simp] theorem takeCmd_beats : (s.takeCmd).beats = s.beats := rfl
@[simp] theorem takeCmd_outReady : (s.takeCmd).outReady = s.outReady := rfl
@[simp] theorem takeCmd_delivered : (s.takeCmd).delivered = s.delivered := rfl
@[simp] theorem takeCmd_agenda : (s.takeCmd).agenda = s.agenda := rfl

/-! ### takeBeat -/

@[simp] theorem takeBeat_cfg : (s.takeBeat).cfg = s.cfg := rfl
@[simp] theorem takeBeat_fSlot : (s.takeBeat).fSlot = s.fSlot := rfl
@[simp] theorem takeBeat_acc : (s.takeBeat).acc = s.acc := rfl
@[simp] theorem takeBeat_sSlot : (s.takeBeat).sSlot = s.sSlot := rfl
@[simp] theorem takeBeat_sm3 : (s.takeBeat).sm3 = s.sm3 := rfl
@[simp] theorem takeBeat_oq : (s.takeBeat).oq = s.oq := rfl
@[simp] theorem takeBeat_fault : (s.takeBeat).fault = s.fault := rfl
@[simp] theorem takeBeat_cause : (s.takeBeat).cause = s.cause := rfl
@[simp] theorem takeBeat_finfo : (s.takeBeat).finfo = s.finfo := rfl
@[simp] theorem takeBeat_rst : (s.takeBeat).rst = s.rst := rfl
@[simp] theorem takeBeat_cmd : (s.takeBeat).cmd = s.cmd := rfl
@[simp] theorem takeBeat_beats : (s.takeBeat).beats = s.beats.drop 1 := rfl
@[simp] theorem takeBeat_outReady : (s.takeBeat).outReady = s.outReady := rfl
@[simp] theorem takeBeat_delivered : (s.takeBeat).delivered = s.delivered := rfl
@[simp] theorem takeBeat_agenda : (s.takeBeat).agenda = s.agenda := rfl

/-! ### startJob -/

@[simp] theorem startJob_cfg (op : Op) (tag : BitVec 16) : (s.startJob op tag).cfg = s.cfg := rfl
@[simp] theorem startJob_fSlot (op : Op) (tag : BitVec 16) :
    (s.startJob op tag).fSlot = { busy := true, op := op.code, tag := tag, cmd := commandWord op tag, cnt := 0 } := rfl
@[simp] theorem startJob_acc (op : Op) (tag : BitVec 16) : (s.startJob op tag).acc = zeroBytes 64 := rfl
@[simp] theorem startJob_sSlot (op : Op) (tag : BitVec 16) : (s.startJob op tag).sSlot = s.sSlot := rfl
@[simp] theorem startJob_sm3 (op : Op) (tag : BitVec 16) : (s.startJob op tag).sm3 = s.sm3 := rfl
@[simp] theorem startJob_oq (op : Op) (tag : BitVec 16) : (s.startJob op tag).oq = s.oq := rfl
@[simp] theorem startJob_fault (op : Op) (tag : BitVec 16) : (s.startJob op tag).fault = s.fault := rfl
@[simp] theorem startJob_cause (op : Op) (tag : BitVec 16) : (s.startJob op tag).cause = s.cause := rfl
@[simp] theorem startJob_finfo (op : Op) (tag : BitVec 16) : (s.startJob op tag).finfo = s.finfo := rfl
@[simp] theorem startJob_rst (op : Op) (tag : BitVec 16) : (s.startJob op tag).rst = s.rst := rfl
@[simp] theorem startJob_cmd (op : Op) (tag : BitVec 16) : (s.startJob op tag).cmd = s.cmd := rfl
@[simp] theorem startJob_beats (op : Op) (tag : BitVec 16) : (s.startJob op tag).beats = s.beats := rfl
@[simp] theorem startJob_outReady (op : Op) (tag : BitVec 16) : (s.startJob op tag).outReady = s.outReady := rfl
@[simp] theorem startJob_delivered (op : Op) (tag : BitVec 16) : (s.startJob op tag).delivered = s.delivered := rfl
@[simp] theorem startJob_agenda (op : Op) (tag : BitVec 16) : (s.startJob op tag).agenda = s.agenda := rfl

/-! ### foldBeat -/

@[simp] theorem foldBeat_cfg (d : Bytes 64) : (s.foldBeat d).cfg = s.cfg := rfl
@[simp] theorem foldBeat_fSlot (d : Bytes 64) : (s.foldBeat d).fSlot = { s.fSlot with cnt := s.fSlot.cnt + 1 } := rfl
@[simp] theorem foldBeat_acc (d : Bytes 64) : (s.foldBeat d).acc = xorBytes s.acc d := rfl
@[simp] theorem foldBeat_sSlot (d : Bytes 64) : (s.foldBeat d).sSlot = s.sSlot := rfl
@[simp] theorem foldBeat_sm3 (d : Bytes 64) : (s.foldBeat d).sm3 = s.sm3 := rfl
@[simp] theorem foldBeat_oq (d : Bytes 64) : (s.foldBeat d).oq = s.oq := rfl
@[simp] theorem foldBeat_fault (d : Bytes 64) : (s.foldBeat d).fault = s.fault := rfl
@[simp] theorem foldBeat_cause (d : Bytes 64) : (s.foldBeat d).cause = s.cause := rfl
@[simp] theorem foldBeat_finfo (d : Bytes 64) : (s.foldBeat d).finfo = s.finfo := rfl
@[simp] theorem foldBeat_rst (d : Bytes 64) : (s.foldBeat d).rst = s.rst := rfl
@[simp] theorem foldBeat_cmd (d : Bytes 64) : (s.foldBeat d).cmd = s.cmd := rfl
@[simp] theorem foldBeat_beats (d : Bytes 64) : (s.foldBeat d).beats = s.beats := rfl
@[simp] theorem foldBeat_outReady (d : Bytes 64) : (s.foldBeat d).outReady = s.outReady := rfl
@[simp] theorem foldBeat_delivered (d : Bytes 64) : (s.foldBeat d).delivered = s.delivered := rfl
@[simp] theorem foldBeat_agenda (d : Bytes 64) : (s.foldBeat d).agenda = s.agenda := rfl

/-! ### freeF -/

@[simp] theorem freeF_cfg : (s.freeF).cfg = s.cfg := rfl
@[simp] theorem freeF_fSlot : (s.freeF).fSlot = { s.fSlot with busy := false } := rfl
@[simp] theorem freeF_acc : (s.freeF).acc = s.acc := rfl
@[simp] theorem freeF_sSlot : (s.freeF).sSlot = s.sSlot := rfl
@[simp] theorem freeF_sm3 : (s.freeF).sm3 = s.sm3 := rfl
@[simp] theorem freeF_oq : (s.freeF).oq = s.oq := rfl
@[simp] theorem freeF_fault : (s.freeF).fault = s.fault := rfl
@[simp] theorem freeF_cause : (s.freeF).cause = s.cause := rfl
@[simp] theorem freeF_finfo : (s.freeF).finfo = s.finfo := rfl
@[simp] theorem freeF_rst : (s.freeF).rst = s.rst := rfl
@[simp] theorem freeF_cmd : (s.freeF).cmd = s.cmd := rfl
@[simp] theorem freeF_beats : (s.freeF).beats = s.beats := rfl
@[simp] theorem freeF_outReady : (s.freeF).outReady = s.outReady := rfl
@[simp] theorem freeF_delivered : (s.freeF).delivered = s.delivered := rfl
@[simp] theorem freeF_agenda : (s.freeF).agenda = s.agenda := rfl

/-! ### freeS -/

@[simp] theorem freeS_cfg : (s.freeS).cfg = s.cfg := rfl
@[simp] theorem freeS_fSlot : (s.freeS).fSlot = s.fSlot := rfl
@[simp] theorem freeS_acc : (s.freeS).acc = s.acc := rfl
@[simp] theorem freeS_sSlot : (s.freeS).sSlot = { s.sSlot with busy := false } := rfl
@[simp] theorem freeS_sm3 : (s.freeS).sm3 = s.sm3 := rfl
@[simp] theorem freeS_oq : (s.freeS).oq = s.oq := rfl
@[simp] theorem freeS_fault : (s.freeS).fault = s.fault := rfl
@[simp] theorem freeS_cause : (s.freeS).cause = s.cause := rfl
@[simp] theorem freeS_finfo : (s.freeS).finfo = s.finfo := rfl
@[simp] theorem freeS_rst : (s.freeS).rst = s.rst := rfl
@[simp] theorem freeS_cmd : (s.freeS).cmd = s.cmd := rfl
@[simp] theorem freeS_beats : (s.freeS).beats = s.beats := rfl
@[simp] theorem freeS_outReady : (s.freeS).outReady = s.outReady := rfl
@[simp] theorem freeS_delivered : (s.freeS).delivered = s.delivered := rfl
@[simp] theorem freeS_agenda : (s.freeS).agenda = s.agenda := rfl

/-! ### loadS -/

@[simp] theorem loadS_cfg : (s.loadS).cfg = s.cfg := rfl
@[simp] theorem loadS_fSlot : (s.loadS).fSlot = s.fSlot := rfl
@[simp] theorem loadS_acc : (s.loadS).acc = s.acc := rfl
@[simp] theorem loadS_sSlot : (s.loadS).sSlot = { busy := true, op := s.fSlot.op, tag := s.fSlot.tag, blk := s.acc } := rfl
@[simp] theorem loadS_sm3 : (s.loadS).sm3 = s.sm3 := rfl
@[simp] theorem loadS_oq : (s.loadS).oq = s.oq := rfl
@[simp] theorem loadS_fault : (s.loadS).fault = s.fault := rfl
@[simp] theorem loadS_cause : (s.loadS).cause = s.cause := rfl
@[simp] theorem loadS_finfo : (s.loadS).finfo = s.finfo := rfl
@[simp] theorem loadS_rst : (s.loadS).rst = s.rst := rfl
@[simp] theorem loadS_cmd : (s.loadS).cmd = s.cmd := rfl
@[simp] theorem loadS_beats : (s.loadS).beats = s.beats := rfl
@[simp] theorem loadS_outReady : (s.loadS).outReady = s.outReady := rfl
@[simp] theorem loadS_delivered : (s.loadS).delivered = s.delivered := rfl
@[simp] theorem loadS_agenda : (s.loadS).agenda = s.agenda := rfl

/-! ### pushRecord -/

@[simp] theorem pushRecord_cfg (r : Record) : (s.pushRecord r).cfg = s.cfg := rfl
@[simp] theorem pushRecord_fSlot (r : Record) : (s.pushRecord r).fSlot = s.fSlot := rfl
@[simp] theorem pushRecord_acc (r : Record) : (s.pushRecord r).acc = s.acc := rfl
@[simp] theorem pushRecord_sSlot (r : Record) : (s.pushRecord r).sSlot = s.sSlot := rfl
@[simp] theorem pushRecord_sm3 (r : Record) : (s.pushRecord r).sm3 = s.sm3 := rfl
@[simp] theorem pushRecord_oq (r : Record) : (s.pushRecord r).oq = s.oq ++ [r] := rfl
@[simp] theorem pushRecord_fault (r : Record) : (s.pushRecord r).fault = s.fault := rfl
@[simp] theorem pushRecord_cause (r : Record) : (s.pushRecord r).cause = s.cause := rfl
@[simp] theorem pushRecord_finfo (r : Record) : (s.pushRecord r).finfo = s.finfo := rfl
@[simp] theorem pushRecord_rst (r : Record) : (s.pushRecord r).rst = s.rst := rfl
@[simp] theorem pushRecord_cmd (r : Record) : (s.pushRecord r).cmd = s.cmd := rfl
@[simp] theorem pushRecord_beats (r : Record) : (s.pushRecord r).beats = s.beats := rfl
@[simp] theorem pushRecord_outReady (r : Record) : (s.pushRecord r).outReady = s.outReady := rfl
@[simp] theorem pushRecord_delivered (r : Record) : (s.pushRecord r).delivered = s.delivered := rfl
@[simp] theorem pushRecord_agenda (r : Record) : (s.pushRecord r).agenda = s.agenda := rfl

/-! ### handRecord -/

@[simp] theorem handRecord_cfg (r : Record) : (s.handRecord r).cfg = s.cfg := rfl
@[simp] theorem handRecord_fSlot (r : Record) : (s.handRecord r).fSlot = s.fSlot := rfl
@[simp] theorem handRecord_acc (r : Record) : (s.handRecord r).acc = s.acc := rfl
@[simp] theorem handRecord_sSlot (r : Record) : (s.handRecord r).sSlot = s.sSlot := rfl
@[simp] theorem handRecord_sm3 (r : Record) : (s.handRecord r).sm3 = s.sm3 := rfl
@[simp] theorem handRecord_oq (r : Record) : (s.handRecord r).oq = s.oq.drop 1 := rfl
@[simp] theorem handRecord_fault (r : Record) : (s.handRecord r).fault = s.fault := rfl
@[simp] theorem handRecord_cause (r : Record) : (s.handRecord r).cause = s.cause := rfl
@[simp] theorem handRecord_finfo (r : Record) : (s.handRecord r).finfo = s.finfo := rfl
@[simp] theorem handRecord_rst (r : Record) : (s.handRecord r).rst = s.rst := rfl
@[simp] theorem handRecord_cmd (r : Record) : (s.handRecord r).cmd = s.cmd := rfl
@[simp] theorem handRecord_beats (r : Record) : (s.handRecord r).beats = s.beats := rfl
@[simp] theorem handRecord_outReady (r : Record) : (s.handRecord r).outReady = s.outReady := rfl
@[simp] theorem handRecord_delivered (r : Record) : (s.handRecord r).delivered = s.delivered ++ [r] := rfl
@[simp] theorem handRecord_agenda (r : Record) : (s.handRecord r).agenda = s.agenda := rfl

/-! ### raise -/

@[simp] theorem raise_cfg (c : Cause) (info : BitVec 32) : (s.raise c info).cfg = s.cfg := rfl
@[simp] theorem raise_fSlot (c : Cause) (info : BitVec 32) : (s.raise c info).fSlot = s.fSlot := rfl
@[simp] theorem raise_acc (c : Cause) (info : BitVec 32) : (s.raise c info).acc = s.acc := rfl
@[simp] theorem raise_sSlot (c : Cause) (info : BitVec 32) : (s.raise c info).sSlot = s.sSlot := rfl
@[simp] theorem raise_sm3 (c : Cause) (info : BitVec 32) : (s.raise c info).sm3 = s.sm3 := rfl
@[simp] theorem raise_oq (c : Cause) (info : BitVec 32) : (s.raise c info).oq = s.oq := rfl
@[simp] theorem raise_fault (c : Cause) (info : BitVec 32) : (s.raise c info).fault = true := rfl
@[simp] theorem raise_cause (c : Cause) (info : BitVec 32) : (s.raise c info).cause = causeCode c := rfl
@[simp] theorem raise_finfo (c : Cause) (info : BitVec 32) : (s.raise c info).finfo = info := rfl
@[simp] theorem raise_rst (c : Cause) (info : BitVec 32) : (s.raise c info).rst = s.rst := rfl
@[simp] theorem raise_cmd (c : Cause) (info : BitVec 32) : (s.raise c info).cmd = s.cmd := rfl
@[simp] theorem raise_beats (c : Cause) (info : BitVec 32) : (s.raise c info).beats = s.beats := rfl
@[simp] theorem raise_outReady (c : Cause) (info : BitVec 32) : (s.raise c info).outReady = s.outReady := rfl
@[simp] theorem raise_delivered (c : Cause) (info : BitVec 32) : (s.raise c info).delivered = s.delivered := rfl
@[simp] theorem raise_agenda (c : Cause) (info : BitVec 32) : (s.raise c info).agenda = s.agenda := rfl

/-! ### resetEngine -/

@[simp] theorem resetEngine_cfg : (s.resetEngine).cfg = s.cfg := rfl
@[simp] theorem resetEngine_fSlot : (s.resetEngine).fSlot = FSlot.reset := rfl
@[simp] theorem resetEngine_acc : (s.resetEngine).acc = zeroBytes 64 := rfl
@[simp] theorem resetEngine_sSlot : (s.resetEngine).sSlot = SSlot.reset := rfl
@[simp] theorem resetEngine_sm3 : (s.resetEngine).sm3 = Sm3Core.reset := rfl
@[simp] theorem resetEngine_oq : (s.resetEngine).oq = [] := rfl
@[simp] theorem resetEngine_fault : (s.resetEngine).fault = false := rfl
@[simp] theorem resetEngine_cause : (s.resetEngine).cause = 0#4 := rfl
@[simp] theorem resetEngine_finfo : (s.resetEngine).finfo = 0#32 := rfl
@[simp] theorem resetEngine_rst : (s.resetEngine).rst = s.rst := rfl
@[simp] theorem resetEngine_cmd : (s.resetEngine).cmd = s.cmd := rfl
@[simp] theorem resetEngine_beats : (s.resetEngine).beats = s.beats := rfl
@[simp] theorem resetEngine_outReady : (s.resetEngine).outReady = s.outReady := rfl
@[simp] theorem resetEngine_delivered : (s.resetEngine).delivered = s.delivered := rfl
@[simp] theorem resetEngine_agenda : (s.resetEngine).agenda = s.agenda := rfl

end Sys2Proof.Machine.State
end

