-- ==== Sys2Proof/Laws/Step.lean ====
section
/-! SUPPORT. What a step can do, said once: `engineStep_taken` and `step_moved`. Later proofs cite these two and never
unfold the step function (spec/42_digest_engine.md rules R99 to R106). -/

namespace Sys2Proof.Machine

/-- Every command's meaning is the accept step with its own opcode. -/
theorem exec_eq_acceptJob (i : Instr) (s : State) : exec i s = acceptJob i.op i.tag s := by cases i <;> rfl

theorem cmdReady_iff {s : State} :
    s.cmdReady = true ↔ s.rst = false ∧ s.fault = false ∧ s.fSlot.busy = false := by
  simp [State.cmdReady, and_assoc]

theorem inReady_iff {s : State} :
    s.inReady = true ↔ s.rst = false ∧ s.fault = false ∧ s.fSlot.busy = true ∧
      ∃ op, Op.ofCode s.fSlot.op = some op ∧ s.fSlot.cnt.toNat < beatsOf op := by
  simp only [State.inReady, State.beatsMissing, State.fBeats, Bool.and_eq_true, Bool.not_eq_true', Option.any_map,
    Option.any_eq_true, decide_eq_true_eq, and_assoc]

theorem canAdvance_iff {s : State} :
    s.canAdvance = true ↔ s.rst = false ∧ s.fSlot.busy = true ∧
      (∃ op, Op.ofCode s.fSlot.op = some op ∧ s.fSlot.cnt.toNat = beatsOf op) ∧ s.sSlot.busy = false := by
  simp only [State.canAdvance, State.beatsComplete, State.fBeats, Bool.and_eq_true, Bool.not_eq_true', Option.any_map,
    Option.any_eq_true, decide_eq_true_eq, and_assoc]

theorem canRetire_iff {s : State} :
    s.canRetire = true ↔ s.rst = false ∧ s.sSlot.busy = true ∧ s.oq.length < s.cfg.outDepth := by
  simp [State.canRetire, and_assoc]

theorem outValid_iff {s : State} : s.outValid = true ↔ s.rst = false ∧ s.oq ≠ [] := by
  simp [State.outValid]

/-- The state after the retire step of a job with opcode `op` (rule R102). -/
def retired (s : State) (op : Op) : State :=
  (({ s with sm3 := s.sm3.runJob s.cfg.padMode op s.sSlot.blk }).pushRecord
    (recordOf s.cfg.padMode op s.sSlot.tag s.sSlot.blk)).freeS

/-- The state after a beat that is not properly framed (rule R123). -/
def misframed (s : State) : State :=
  (s.takeBeat.raise .frame (frameInfo s.fSlot.cnt s.fSlot.cmd)).freeF

/-- What a step of the engine does while `rst` is 0, its guard included. -/
inductive Taken (s : State) : State → Prop
  /-- the guard does not hold, or nothing is offered -/
  | nothing : Taken s s
  /-- `AcceptCmd`, a legal word -/
  | command {c : Word} {rest : List Word} {i : Instr} (offered : s.cmd = c :: rest) (ready : s.cmdReady = true)
      (reads : decode c = .command i) : Taken s (s.takeCmd.startJob i.op i.tag)
  /-- `AcceptCmd`, an illegal word -/
  | illegal {c : Word} {rest : List Word} (offered : s.cmd = c :: rest) (ready : s.cmdReady = true)
      (reads : decode c = .illegal) : Taken s (s.takeCmd.raise .illcmd c)
  /-- `AcceptBeat`, properly framed -/
  | beat {b : Beat} {rest : List Beat} {op : Op} (offered : s.beats = b :: rest) (ready : s.inReady = true)
      (opcode : Op.ofCode s.fSlot.op = some op) (last : framed op s.fSlot.cnt.toNat b.last = true) :
      Taken s (s.takeBeat.foldBeat b.data)
  /-- `AcceptBeat`, not properly framed -/
  | frame {b : Beat} {rest : List Beat} {op : Op} (offered : s.beats = b :: rest) (ready : s.inReady = true)
      (opcode : Op.ofCode s.fSlot.op = some op) (last : framed op s.fSlot.cnt.toNat b.last = false) :
      Taken s (misframed s)
  /-- `Advance` -/
  | advance (can : s.canAdvance = true) : Taken s s.loadS.freeF
  /-- `Retire` -/
  | retire {op : Op} (can : s.canRetire = true) (opcode : Op.ofCode s.sSlot.op = some op) : Taken s (retired s op)
  /-- `Deliver` -/
  | deliver {r : Record} {rest : List Record} (head : s.oq = r :: rest) (valid : s.outValid = true)
      (ready : s.outReady = true) : Taken s (s.handRecord r)

/-- While `rst` is 1 every step of the engine is `Reset` (rules R126, R135). -/
theorem engineStep_of_rst {e : EngineStep} {s : State} (h : s.rst = true) :
    engineStep e s = .next s.resetEngine := by simp [engineStep, h]

theorem acceptJob_of_ready {op : Op} {tag : BitVec 16} {s : State} (h : s.cmdReady = true) :
    acceptJob op tag s = .next (s.takeCmd.startJob op tag) := by simp [acceptJob, h]

theorem acceptJob_of_not_ready {op : Op} {tag : BitVec 16} {s : State} (h : s.cmdReady = false) :
    acceptJob op tag s = .next s := by simp [acceptJob, h]

/-- An engine step that goes on does one of these things. -/
theorem engineStep_taken {e : EngineStep} {s t : State} (hr : s.rst = false) (h : engineStep e s = .next t) :
    Taken s t := by
  simp only [engineStep, hr, Bool.false_eq_true, if_false] at h
  cases e with
  | acceptCmd =>
    simp only [acceptCmd] at h
    split at h
    · cases h; exact .nothing
    · next c rest hc =>
      split at h
      · next i hi =>
        rw [exec_eq_acceptJob] at h
        by_cases hq : s.cmdReady = true
        · rw [acceptJob_of_ready hq] at h; cases h; exact .command hc hq hi
        · rw [acceptJob_of_not_ready (by simpa using hq)] at h; cases h; exact .nothing
      · next hi =>
        simp only [acceptIllegal] at h
        split at h
        · next hq => cases h; exact .illegal hc hq hi
        · cases h; exact .nothing
  | acceptBeat =>
    simp only [offeredBeat] at h
    split at h
    · cases h; exact .nothing
    · next b rest hb =>
      simp only [acceptBeat] at h
      split at h
      · next hq =>
        obtain ⟨-, -, -, op, hop, -⟩ := inReady_iff.mp hq
        simp only [hop, Option.any_some] at h
        split at h
        · next hl => cases h; exact .beat hb hq hop hl
        · next hl => cases h; exact .frame hb hq hop (by simpa using hl)
      · cases h; exact .nothing
  | advance =>
    simp only [advance] at h
    split at h
    · next hq => cases h; exact .advance hq
    · cases h; exact .nothing
  | retire =>
    simp only [retire] at h
    split at h
    · next hq =>
      split at h
      · next op hop => cases h; exact .retire hq hop
      · cases h
    · cases h; exact .nothing
  | deliver =>
    simp only [deliver] at h
    split at h
    · next r rest hoq =>
      split at h
      · next hq =>
        rw [Bool.and_eq_true] at hq
        cases h; exact .deliver hoq hq.1 hq.2
      · cases h; exact .nothing
    · cases h; exact .nothing

/-- A state with the head of its agenda taken off. -/
def popped (s : State) : State := { s with agenda := s.agenda.drop 1 }

@[simp] theorem popped_of_nil {s : State} (h : s.agenda = []) : popped s = s := by
  cases s; simp_all [popped]

/-- What one step of the machine does, when it goes on. -/
inductive Moved (s : State) : State → Prop
  /-- `Reset`: `rst` is 1 and the move is the engine's -/
  | reset (high : s.rst = true) : Moved s (popped s).resetEngine
  /-- a step of the engine, `rst` being 0 -/
  | engine {t : State} (low : s.rst = false) (taken : Taken (popped s) t) : Moved s t
  /-- a move of the host -/
  | host {m : HostMove} {rest : List Move} (head : s.agenda = .host m :: rest) : Moved s (hostMove m (popped s))

theorem step_moved {s t : State} (h : step s = .next t) : Moved s t := by
  simp only [step, nextMove] at h
  split at h
  · next hag =>
    simp only [defaultMove] at h
    split at h
    · next hr =>
      cases h
      have := Moved.reset hr
      rwa [popped_of_nil hag] at this
    · next hr =>
      have hr : s.rst = false := by simpa using hr
      split at h
      · next e he =>
        exact .engine hr (by rw [popped_of_nil hag]; exact engineStep_taken hr h)
      · cases h
        exact .engine hr (by rw [popped_of_nil hag]; exact .nothing)
  · next e rest hag =>
    have hp : { s with agenda := rest } = popped s := by simp [popped, hag]
    rw [hp] at h
    by_cases hr : s.rst = true
    · rw [engineStep_of_rst (s := popped s) hr] at h
      cases h; exact .reset hr
    · have hr : s.rst = false := by simpa using hr
      exact .engine hr (engineStep_taken (s := popped s) hr h)
  · next m rest hag =>
    have hp : { s with agenda := rest } = popped s := by simp [popped, hag]
    rw [hp] at h
    cases h; exact .host hag

/-- A step of the engine goes on unless the busy S slot holds an opcode that is not legal (rule R107 gives that one no
result). -/
theorem engineStep_goes_on {e : EngineStep} {s : State}
    (legalS : s.sSlot.busy = true → (Op.ofCode s.sSlot.op).isSome = true) : ∃ t, engineStep e s = .next t := by
  unfold engineStep
  split
  · exact ⟨_, rfl⟩
  cases e with
  | acceptCmd =>
    simp only [acceptCmd, acceptIllegal, exec_eq_acceptJob, acceptJob]
    split
    · exact ⟨_, rfl⟩
    · split <;> split <;> exact ⟨_, rfl⟩
  | acceptBeat =>
    simp only [offeredBeat, acceptBeat]
    split
    · exact ⟨_, rfl⟩
    · split
      · split <;> exact ⟨_, rfl⟩
      · exact ⟨_, rfl⟩
  | advance =>
    simp only [advance]
    split <;> exact ⟨_, rfl⟩
  | retire =>
    simp only [retire]
    split
    · next can =>
      obtain ⟨op, hop⟩ := Option.isSome_iff_exists.mp (legalS (canRetire_iff.mp can).2.1)
      rw [hop]
      exact ⟨_, rfl⟩
    · exact ⟨_, rfl⟩
  | deliver =>
    simp only [deliver]
    split
    · split <;> exact ⟨_, rfl⟩
    · exact ⟨_, rfl⟩

end Sys2Proof.Machine
end

