-- ==== Sys2Proof/Laws/Cluster.lean ====
section
/-! SUPPORT. What a move and a run of several engines can do, and what the join says of each engine
(spec/42_digest_engine.md rules R110, R113). -/

namespace Sys2Proof.Machine

/-- A move of a cluster moves one engine by one step of its own, or, where the number is no engine's, nothing. -/
theorem clusterStep_cases {engines after : Cluster} {w : Nat} (h : clusterStep engines w = .next after) :
    (engines[w]? = none ∧ after = engines) ∨
    ∃ s t, engines[w]? = some s ∧ step s = .next t ∧ after = engines.set w t := by
  unfold clusterStep at h
  cases hw : engines[w]? with
  | none => rw [hw] at h; cases h; exact .inl ⟨rfl, rfl⟩
  | some s =>
    rw [hw] at h
    cases hs : step s with
    | next t => simp only [hs] at h; cases h; exact .inr ⟨s, t, rfl, hs, rfl⟩
    | fault r => simp [hs] at h
    | refused r => simp [hs] at h

@[simp] theorem clusterRun_nil (engines : Cluster) : clusterRun engines [] = .next engines := rfl

/-- A run of a cluster that goes on begins with a move that goes on. -/
theorem clusterRun_cons {engines after : Cluster} {w : Nat} {ws : List Nat}
    (h : clusterRun engines (w :: ws) = .next after) :
    ∃ mid, clusterStep engines w = .next mid ∧ clusterRun mid ws = .next after := by
  unfold clusterRun at h
  cases hw : clusterStep engines w with
  | next mid => simp only [hw] at h; exact ⟨mid, rfl, h⟩
  | fault r => simp [hw] at h
  | refused r => simp [hw] at h

@[simp] theorem joined_nil : joined [] [] = true := rfl

/-- The join, engine by engine. -/
theorem joined_iff {engines : Cluster} {sent : List Nat} :
    joined engines sent = true ↔ engines.length = sent.length ∧
      ∀ (w : Nat) (s : State) (n : Nat), engines[w]? = some s → sent[w]? = some n → s.busy = false ∧ s.delivered.length = n := by
  simp only [joined, Bool.and_eq_true, beq_iff_eq, List.all_eq_true, Bool.not_eq_true']
  refine and_congr_right fun _ => ⟨fun h w s n hs hn => ?_, fun h p hp => ?_⟩
  · exact h (s, n) (List.mem_of_getElem? (List.getElem?_zip_eq_some.mpr ⟨hs, hn⟩))
  · obtain ⟨w, hw⟩ := List.getElem?_of_mem hp
    obtain ⟨hs, hn⟩ := List.getElem?_zip_eq_some.mp hw
    exact h w p.1 p.2 hs hn

end Sys2Proof.Machine
end

