-- ==== Sys2Proof/Laws/PerInstr.lean ====
section
/-! SUPPORT. Statements made per instruction: the fields of a command's word are the command's fields, and they are legal
(spec/30_encoding.md rules R49 to R53). -/

namespace Sys2Proof.Laws.EncodedFields

/-- The command is well formed, and its word has its fields: `RSV` zero, its tag, its opcode. -/
def Statement (i : Instr) : Prop := i.wf = true ∧ FormatC.ofWord (encode i) = i.fields

theorem hash256 (tag : BitVec 16) : Statement (.hash256 tag) := ⟨rfl, FormatC.ofWord_toWord _⟩

theorem hash128 (tag : BitVec 16) : Statement (.hash128 tag) := ⟨rfl, FormatC.ofWord_toWord _⟩

theorem fold (tag : BitVec 16) : Statement (.fold tag) := ⟨rfl, FormatC.ofWord_toWord _⟩

theorem sm3cf (tag : BitVec 16) : Statement (.sm3cf tag) := ⟨rfl, FormatC.ofWord_toWord _⟩

end Sys2Proof.Laws.EncodedFields
end

