-- ==== Sys2Proof/Tests/Slice0.lean ====
section
/-! SUPPORT. Tests. The expected values are the spec's: the encodings of 30_encoding.md, the vectors of
95_test_vectors.md, and small hand calculations. The second half shows, for every statement with hypotheses, states and
operands that meet them. -/

namespace Sys2Proof.Tests

open Sys2Proof Sys2Proof.Machine

/-! ### Well-formedness: each check refuses an ill-formed term -/

theorem test_rsv_must_be_zero : FormatC.wf { rsv := 0x01#8, tag := 0#16, opc := 0x01#8 } = false := by decide
theorem test_opc_zero_refused : FormatC.wf { rsv := 0#8, tag := 0#16, opc := 0x00#8 } = false := by decide
theorem test_opc_five_refused : FormatC.wf { rsv := 0#8, tag := 0xFFFF#16, opc := 0x05#8 } = false := by decide
theorem test_fields_accepted : FormatC.wf { rsv := 0#8, tag := 0xFFFF#16, opc := 0x04#8 } = true := by decide
theorem test_script_tag_too_large : (ScriptLine.command .fold 65536).wf = false := by decide
theorem test_depth_zero_refused : Config.wf { padMode := .pad0, outDepth := 0 } = false := by decide

/-! ### Decoding and encoding: words from the bit positions of rule R49, and vectors V15, V16 -/

theorem test_decode_hash256 : decode 0b00000000_0000000000000111_00000001#32 = .command (.hash256 7) := by decide
theorem test_decode_hash128 : decode 0b00000000_0001001000110100_00000010#32 = .command (.hash128 0x1234) := by decide
theorem test_decode_fold : decode 0b00000000_1111111111111111_00000011#32 = .command (.fold 0xFFFF) := by decide
theorem test_decode_sm3cf : decode 0b00000000_1000000000000000_00000100#32 = .command (.sm3cf 0x8000) := by decide
theorem test_decode_rsv : decode 0b00000001_0000000000000000_00000001#32 = .illegal := by decide
theorem test_decode_opc81 : decode 0b00000000_0000000000000000_10000001#32 = .illegal := by decide
theorem test_encode_hash128 : encode (.hash128 0x1234) = 0x00123402#32 := by decide
theorem test_encode_sm3cf : encode (.sm3cf 0xFFFF) = 0x00FFFF04#32 := by decide
theorem test_table_word : decodeTableWord 32 0x00ABCD02 = some (.hash128 0xABCD) := by decide
theorem test_table_word_illegal : decodeTableWord 32 0x80000003 = none := by decide
theorem test_assemble : assembleCommand .hash128 0x1234 = 0x00123402#32 := by decide

/-! ### The SM3 functions: vector V8a -/

theorem test_rotl_T : rotl32 (roundT 0) 0 = 0x79cc4519 ∧ rotl32 (roundT 31) 31 = 0x3d43cec5 ∧
    rotl32 (roundT 32) (32 % 32) = 0x7a879d8a ∧ rotl32 (roundT 33) 1 = 0xf50f3b14 := by decide
theorem test_permutations : p0 0x00000001 = 0x00020201 ∧ p1 0x00000001 = 0x00808001 ∧
    p0 0x80000000 = 0x80010100 ∧ p1 0x80000000 = 0x80404000 := by decide
theorem test_ff : ff 0 0x7380166f 0x4914b2b9 0x172442d7 = 0x2db0e601 ∧
    ff 16 0x7380166f 0x4914b2b9 0x172442d7 = 0x530412ff := by decide
theorem test_gg : gg 0 0xa96f30bc 0x163138aa 0xe38dee4d = 0x5cd3e65b ∧
    gg 16 0xa96f30bc 0x163138aa 0xe38dee4d = 0x42a1fee9 := by decide

/-- The "abc" block of rule R88. -/
def abc : Bytes 64 := Vector.ofFn fun i =>
  if i.val = 0 then 0x61 else if i.val = 1 then 0x62 else if i.val = 2 then 0x63 else if i.val = 3 then 0x80
  else if i.val = 63 then 0x18 else 0x00

/-! ### Rounds: vector V2, one round from each row to the next -/

theorem test_round0 : roundWith 0x61626380 0x61626380 0 (startRegs iv) =
    { a := 0xb9edc12b, b := 0x7380166f, c := 0x29657292, d := 0x172442d7,
      e := 0xb2ad29f4, f := 0xa96f30bc, g := 0xc550b189, h := 0xe38dee4d } := by decide +kernel
theorem test_round16 : roundWith 0x9092e200 0x9092e200 16
    { a := 0x34d1691e, b := 0x7c529778, c := 0x92b57849, d := 0x979ab113,
      e := 0x61f99646, f := 0x3ee95933, g := 0x2aa0d251, h := 0xdb131b86 } =
    { a := 0x796afab1, b := 0x34d1691e, c := 0xa52ef0f8, d := 0x92b57849,
      e := 0x067550f5, f := 0x61f99646, g := 0xc999f74a, h := 0x2aa0d251 } := by decide +kernel
theorem test_round32 : roundWith 0xe1dae338 0xfe9e9ebb 32
    { a := 0x89a13e59, b := 0xa5a4a2b3, c := 0x37593bff, d := 0x3d708fc2,
      e := 0x0a1ff572, f := 0xe92df4ea, g := 0xa36cc08d, h := 0x74b72db2 } =
    { a := 0x3720bd4e, b := 0x89a13e59, c := 0x4945674b, d := 0x37593bff,
      e := 0xcf7d1683, f := 0x0a1ff572, g := 0xa757496f, h := 0xa36cc08d } := by decide +kernel
theorem test_expansion : wordAt (expand abc) 16 = 0x9092e200 ∧ wPrime (expand abc) 12 = 0x9092e200 ∧
    wordAt (expand abc) 67 = 0xb99c0545 := by decide +kernel

/-! ### The commands: small states -/

/-- A machine whose SM3 stage holds a job with this opcode and this block. -/
def compressing (pad : PadMode) (op : Op) (tag : BitVec 16) (blk : Bytes 64) : State :=
  { State.reset with
    cfg := { padMode := pad, outDepth := 1 }
    sSlot := { busy := true, op := op.code, tag := tag, blk := blk } }

/-- A machine whose fold stage holds a job with this opcode, `n` of its beats taken, and is offered one beat. -/
def folding (op : Op) (tag : BitVec 16) (n : BitVec 7) (b : Beat) : State :=
  { State.reset with
    fSlot := { busy := true, op := op.code, tag := tag, cmd := commandWord op tag, cnt := n }
    beats := [b] }

/-- A machine after reset to which the host offers this word. -/
def offered (c : Word) : State := { State.reset with cmd := [c] }

/-- A state seen through a field, where the outcome is a next state. -/
def seen {α : Type} (o : Host.Outcome State Fault Refusal) (f : State → α) : Option α :=
  match o with
  | .next s => some (f s)
  | .fault _ => none
  | .refused _ => none

/-- The message block `01` then `0^63` (vectors V8, V14). -/
def one : Bytes 64 := Vector.ofFn fun i => if i.val = 0 then 0x01 else 0x00

/-- The message block `61 62 63 64` x16 (vector V7). -/
def abcd : Bytes 64 := Vector.ofFn fun i => BitVec.ofNat 8 (0x61 + i.val % 4)

/-- Vector V14, first record: tag, length, the first and the last digest byte and the first byte of fill. -/
theorem test_hash256_record : seen (retire (compressing .pad0 .hash256 0x0012 one)) (fun s =>
    s.oq.map fun r => (r.tag, r.len, byteAt r.data 0, byteAt r.data 31, byteAt r.data 32)) =
    some [(0x0012, 32, 0xfc, 0xc7, 0x00)] := by decide +kernel
/-- Vector V7: with `PAD_MODE = 1` the digest of the 64-byte message is the standard's second example. -/
theorem test_hash256_pad1 : digestState .pad1 abcd =
    #v[0xdebe9ff9, 0x2275b8a1, 0x38604889, 0xc18e5a4d, 0x6fdb70e5, 0x387e5765, 0x293dcba3, 0x9c0c5732] := by
  decide +kernel
/-- Vector V14, second record: the digest is cut after 16 bytes. -/
theorem test_hash128_record : seen (retire (compressing .pad0 .hash128 0x0013 one)) (fun s =>
    s.oq.map fun r => (r.tag, r.len, byteAt r.data 0, byteAt r.data 15, byteAt r.data 16)) =
    some [(0x0013, 16, 0xfc, 0xa5, 0x00)] := by decide +kernel
/-- Vector V14, third record. -/
theorem test_fold_record : seen (retire (compressing .pad1 .fold 0x0014 one)) (fun s =>
    s.oq.map fun r => (r.tag, r.len, r.data)) = some [(0x0014, 64, one)] := by decide +kernel
/-- Vector V1 on the engine: the first and the last byte of the source's digest. -/
theorem test_sm3cf_record : seen (retire (compressing .pad1 .sm3cf 1 abc)) (fun s =>
    s.oq.map fun r => (r.tag, r.len, byteAt r.data 0, byteAt r.data 31, byteAt r.data 32)) =
    some [(1, 32, 0x66, 0xe0, 0x00)] := by decide +kernel
/-- Vector V1 whole: the eight words of the digest. -/
theorem test_known_answer : cf iv abc =
    #v[0x66c7f0f4, 0x62eeedd9, 0xd1f2d46b, 0xdc10e4e2, 0x4167c487, 0x5cf2f7a2, 0x297da02b, 0x8f4ba8e0] := by
  decide +kernel

/-- Program P4: beat 0x22 after beat 0x11 leaves 0x33 in `ACC`. -/
theorem test_beat_folds : seen (step { folding .hash128 9 1 ⟨Vector.replicate 64 0x22, false⟩ with
      acc := Vector.replicate 64 0x11 }) (fun s => (byteAt s.acc 0, byteAt s.acc 63, s.fSlot.cnt, s.beats)) =
    some (0x33, 0x33, 2, []) := by decide +kernel

/-! ### Faults: vector V18 -/

theorem test_illcmd : seen (step (offered 0x00000205)) (fun s => (s.status, s.finfo, s.fSlot.busy, s.cmd)) =
    some (0x12, 0x00000205, false, []) := by decide +kernel
theorem test_frame_early : seen (step (folding .hash128 9 2 ⟨zeroBytes 64, true⟩))
    (fun s => (s.status, s.finfo, s.fSlot.busy)) = some (0x22, 0x02000902, false) := by decide +kernel
theorem test_frame_late : seen (step (folding .fold 0xAB 63 ⟨zeroBytes 64, false⟩))
    (fun s => (s.status, s.finfo, s.fSlot.busy)) = some (0x22, 0x3F00AB03, false) := by decide +kernel
theorem test_frame_sm3cf : seen (step (folding .sm3cf 5 0 ⟨zeroBytes 64, false⟩))
    (fun s => (s.status, s.finfo, s.fSlot.busy)) = some (0x22, 0x00000504, false) := by decide +kernel
/-- An `ILLCMD` behind a job in the S slot: `status` is 0x13 (program P3). -/
theorem test_fault_with_older_job : seen (engineStep .acceptCmd { compressing .pad0 .hash256 1 one with cmd := [0x205] })
    (fun s => (s.status, s.sSlot.busy)) = some (0x13, true) := by decide +kernel

/-! ### Starting a command after reset, and placing one -/

theorem test_accept_after_reset : seen (step (offered 0x00123402)) (fun s => (s.fSlot, s.cmd, s.status)) =
    some ({ busy := true, op := 0x02, tag := 0x1234, cmd := 0x00123402, cnt := 0 }, [], 0x01) := by decide +kernel
theorem test_fetch_word : seen (step (State.reset.withFetchWord 32 0x00000703)) (fun s => (s.fSlot.op, s.fSlot.tag)) =
    some (0x03, 7) := by decide +kernel
/-- A placed command runs, whatever state it is placed in. -/
theorem test_fetch_runs (s : State) (i : Instr) (w : Nat) (h : decode (BitVec.ofNat 32 (w % 2 ^ 32)) = .command i) :
    step (s.withFetchWord 32 w) = exec i { s.withFetchWord 32 w with agenda := s.agenda } := by
  simp only [State.withFetchWord, placeCommand, step, nextMove, engineStep, acceptCmd, Bool.false_eq_true, if_false, h]
/-- Reset beats a transfer at the same edge (rule R126): the word stays offered. -/
theorem test_reset_wins : seen (engineStep .acceptCmd { offered 0x00000001 with rst := true })
    (fun s => (s.fSlot.busy, s.cmd)) = some (false, [0x00000001]) := by decide +kernel

/-! ### Ports and partitions: vectors V14, V19 -/

theorem test_out_wires : ((toWires one).extractLsb' 0 8, (toWires one).extractLsb' 8 8) = (0x01#8, 0x00#8) := by
  decide +kernel
theorem test_partition_10_4 : (List.range 4).map (workerRange 10 4) = [(0, 3), (3, 6), (6, 9), (9, 10)] := by decide
theorem test_partition_3_8 : (List.range 8).map (workerRange 3 8) =
    [(0, 1), (1, 2), (2, 3), (3, 3), (3, 3), (3, 3), (3, 3), (3, 3)] := by decide
theorem test_partition_10_neg3 : effectiveWorkers (-3) = 1 ∧ workerRange 10 (-3) 0 = (0, 10) := by decide

/-! ### Witnesses: the hypotheses of the statements can be met -/

/-- A machine with a job in every stage: one record queued, one job compressing, a `FOLD` job with 5 beats taken. -/
def full : State :=
  { State.reset with
    fSlot := { busy := true, op := 0x03, tag := 3, cmd := commandWord .fold 3, cnt := 5 }
    sSlot := { busy := true, op := 0x04, tag := 2, blk := zeroBytes 64 }
    oq := [{ tag := 1, len := 64, data := zeroBytes 64 }]
    cmd := [0x00000401]
    beats := [⟨zeroBytes 64, false⟩]
    outReady := true }

theorem full_meets_the_invariant : EngineInv full where
  depth := by decide
  fSlot := fun _ => ⟨.fold, by decide, by decide, rfl⟩
  sSlot := by decide
  queue := by decide
  records := by
    intro r hr
    rw [show r = { tag := 1, len := 64, data := zeroBytes 64 } from List.mem_singleton.mp hr]
    exact ⟨.inr (.inr rfl), fun i _ => byteAt_zeroBytes 64 i⟩
  faultFree := by decide
  causeIff := by decide
  causeRange := by decide
  finfo := by decide
  counters := by decide

theorem witness_DecodeAndEncodeAgree : (Instr.fold 0xFFFF).wf = true ∧
    decode 0x00FFFF03#32 = .command (.fold 0xFFFF) ∧ decode 0#32 = .illegal := by decide
theorem witness_DecoderIsTheTable :
    0x00FFFF01#32 &&& 0xFF0000FF#32 = 0x00000001#32 ∧ 0x00FFFF02#32 &&& 0xFF0000FF#32 = 0x00000002#32 ∧
    0x00000003#32 &&& 0xFF0000FF#32 = 0x00000003#32 ∧ 0x00FFFF04#32 &&& 0xFF0000FF#32 = 0x00000004#32 ∧
    ¬[0x00000001#32, 0x00000002#32, 0x00000003#32, 0x00000004#32].contains (0x00000005#32 &&& 0xFF0000FF#32) ∧
    ¬[0x00000001#32, 0x00000002#32, 0x00000003#32, 0x00000004#32].contains (0x01000001#32 &&& 0xFF0000FF#32) := by decide
theorem witness_ReservedBitsMustBeZero : (0x01000001#32).getLsbD (24 + 0) = true ∧
    (0x80000003#32).getLsbD (24 + 7) = true ∧ legal 0x00FFFF04#32 = true := by decide
theorem witness_ScriptLineAssemblesToItsCommand : (ScriptLine.command .sm3cf 65535).wf = true ∧
    (ScriptLine.command .sm3cf 0).wf = true := by decide
theorem witness_EachCommandStartsItsJob : (offered 0x00000001).rst = false ∧ (offered 0x00000001).fault = false ∧
    (offered 0x00000001).fSlot.busy = false := by decide
theorem witness_CommandWaitsWhileNotReady : ({ State.reset with rst := true }).rst = true ∧
    ({ State.reset with fault := true }).fault = true ∧ full.fSlot.busy = true := by decide
theorem witness_CommandsLeaveTheRestUnchanged : exec (.fold 3) full = .next full ∧
    ∃ t, exec (.sm3cf 1) (offered 0x00000104) = .next t := ⟨by rw [exec_eq_acceptJob, acceptJob_of_not_ready (by decide)], _, rfl⟩
theorem witness_StepRunsTheDecodedCommand :
    ({ offered 0x00000001 with agenda := [.engine .acceptCmd] }).agenda = .engine .acceptCmd :: [] ∧
    (offered 0x00000001).agenda = [] ∧ firstEnabled (offered 0x00000001) = some .acceptCmd ∧
    (offered 0x00000001).cmd = 0x00000001#32 :: [] ∧ decode 0x00000001#32 = .command (.hash256 0) := by decide
theorem witness_AcceptCmdStep : (offered 0x00000001).cmd = 0x00000001#32 :: [] ∧ legal 0x00000001#32 = true ∧
    (offered 0x00000205).cmd = 0x00000205#32 :: [] ∧ legal 0x00000205#32 = false ∧
    (offered 0x00000205).rst = false ∧ (offered 0x00000205).fault = false ∧ (offered 0x00000205).fSlot.busy = false ∧
    ({ offered 0x00000001 with fault := true }).fault = true ∧ full.fSlot.busy = true ∧
    full.cmd = 0x00000401#32 :: [] := by decide
theorem witness_IllegalWordRaisesIllcmd :
    ({ offered 0x01000001 with agenda := [.engine .acceptCmd] }).agenda = .engine .acceptCmd :: [] ∧
    (offered 0x01000001).cmd = 0x01000001#32 :: [] ∧ legal 0x01000001#32 = false ∧ (offered 0x01000001).rst = false ∧
    (offered 0x01000001).fault = false ∧ (offered 0x01000001).fSlot.busy = false := by decide

/-- The fold stage at the boundaries of a 64-beat job and of a one-beat job, with the flags that are right and wrong there. -/
theorem witness_AcceptBeatStep :
    (∀ p ∈ [(0#7, false), (62#7, false), (63#7, true)],
      (folding .hash256 0 p.1 ⟨zeroBytes 64, p.2⟩).inReady = true ∧
      (p.2 = true ↔ p.1.toNat = beatsOf .hash256 - 1)) ∧
    (∀ p ∈ [(0#7, true), (62#7, true), (63#7, false)],
      (folding .hash256 0 p.1 ⟨zeroBytes 64, p.2⟩).inReady = true ∧
      ¬(p.2 = true ↔ p.1.toNat = beatsOf .hash256 - 1)) ∧
    (folding .sm3cf 0 0 ⟨zeroBytes 64, true⟩).inReady = true ∧
    beatsOf .hash256 ≤ (folding .hash256 0 64 ⟨zeroBytes 64, false⟩).fSlot.cnt.toNat ∧
    (folding .hash256 0 0 ⟨zeroBytes 64, false⟩).fSlot.op = Op.hash256.code := by decide +kernel
theorem witness_MisframedBeatRaisesFrame :
    (∀ p ∈ [(Op.hash256, 0#7, true), (Op.hash128, 62#7, true), (Op.fold, 63#7, false), (Op.sm3cf, 0#7, false)],
      (folding p.1 7 p.2.1 ⟨zeroBytes 64, p.2.2⟩).rst = false ∧ (folding p.1 7 p.2.1 ⟨zeroBytes 64, p.2.2⟩).fault = false ∧
      (folding p.1 7 p.2.1 ⟨zeroBytes 64, p.2.2⟩).fSlot.busy = true ∧
      (folding p.1 7 p.2.1 ⟨zeroBytes 64, p.2.2⟩).fSlot.op = p.1.code ∧
      ((p.2.2 = true ∧ p.2.1.toNat < beatsOf p.1 - 1) ∨ (p.2.2 = false ∧ p.2.1.toNat = beatsOf p.1 - 1))) ∧
    ({ folding .sm3cf 7 0 ⟨zeroBytes 64, false⟩ with agenda := [.engine .acceptBeat] }).agenda =
      .engine .acceptBeat :: [] := by decide
theorem witness_AdvanceStep :
    (∀ p ∈ [(Op.fold, 64#7), (Op.sm3cf, 1#7)],
      (folding p.1 0 p.2 ⟨zeroBytes 64, false⟩).fSlot.busy = true ∧
      (folding p.1 0 p.2 ⟨zeroBytes 64, false⟩).fSlot.cnt.toNat = beatsOf p.1 ∧
      (folding p.1 0 p.2 ⟨zeroBytes 64, false⟩).sSlot.busy = false) ∧
    State.reset.fSlot.busy = false ∧ full.fSlot.cnt.toNat ≠ beatsOf .fold ∧ full.sSlot.busy = true := by decide
theorem witness_RetireStep :
    (∀ op ∈ [Op.hash256, .hash128, .fold, .sm3cf], (compressing .pad1 op 5 one).sSlot.busy = true ∧
      (compressing .pad1 op 5 one).oq.length < (compressing .pad1 op 5 one).cfg.outDepth ∧
      (compressing .pad1 op 5 one).sSlot.op = op.code) ∧
    State.reset.sSlot.busy = false ∧
    ({ full with cfg := { padMode := .pad0, outDepth := 1 } }).cfg.outDepth ≤ full.oq.length := by decide
theorem witness_DeliverStep : full.rst = false ∧ full.oq = { tag := 1, len := 64, data := zeroBytes 64 } :: [] ∧
    full.outReady = true ∧ State.reset.oq = [] ∧ ({ full with outReady := false }).outReady = false := by decide
theorem witness_ResetStep : ({ full with rst := true }).rst = true := by decide
theorem witness_AfterResetOnlyACommandIsTaken : (∃ t, engineStep .retire { full with rst := true } = .next t ∧
      enabled { t with rst := false } .acceptCmd = true) ∧ enabled { State.reset with
    cmd := [0x00000001], beats := [⟨zeroBytes 64, true⟩], outReady := true } .acceptCmd = true := ⟨⟨_, rfl, by decide⟩, by decide⟩
theorem witness_HostMovesOnlyItsPorts : ∀ m ∈ [HostMove.driveRst true, .driveCmd [1], .driveIn [], .driveOutReady false],
    ({ full with agenda := [.host m] }).agenda = .host m :: [] ∧
      seen (step { full with agenda := [.host m] }) (fun t => t) ≠ some { full with agenda := [] } := by decide +kernel

/-- The faulted machine of program P4 with an older job still inside. -/
def faulted : State := { full with
  fSlot := { full.fSlot with busy := false }, fault := true, cause := 2, finfo := 0x02000902 }

theorem witness_FaultStaysUntilReset : faulted.rst = false ∧ faulted.fault = true ∧ (∃ t, step faulted = .next t) ∧
    ({ faulted with rst := true }).rst = true := ⟨by decide, by decide, ⟨_, rfl⟩, by decide⟩
theorem witness_AfterAFaultNothingIsTaken : faulted.rst = false ∧ faulted.fault = true ∧
    ∃ t, engineStep .retire faulted = .next t := ⟨by decide, by decide, _, rfl⟩
theorem witness_ConfigurationNeverChanges : (∃ t, step full = .next t) ∧
    (∃ t, exec (.hash256 1) (offered 0x00000101) = .next t) ∧ ∃ t, engineStep .deliver full = .next t :=
  ⟨⟨_, rfl⟩, ⟨_, rfl⟩, ⟨_, rfl⟩⟩
theorem witness_EveryStepKeepsInv : EngineInv full ∧ ∃ t, step full = .next t := ⟨full_meets_the_invariant, _, rfl⟩
theorem witness_EveryStepGoesOn : EngineInv full := full_meets_the_invariant
theorem witness_JobsInFlightAreBounded : EngineInv full ∧ (inFlight full).length = 3 :=
  ⟨full_meets_the_invariant, by decide⟩
theorem witness_JobsKeepCommandOrder : EngineInv full ∧ full.rst = false ∧
    ∃ t, engineStep .acceptBeat full = .next t := ⟨full_meets_the_invariant, by decide, _, rfl⟩
theorem witness_OfferedRecordStaysUntilTaken : full.rst = false ∧
    full.oq.head? = some { tag := 1, len := 64, data := zeroBytes 64 } ∧ ∃ t, step full = .next t :=
  ⟨by decide, by decide, _, rfl⟩
theorem witness_UnspecifiedRegistersAreNeverRead :
    readable { State.reset with acc := one, fSlot := { FSlot.reset with op := 0x77, cnt := 9 } } = readable State.reset ∧
    ({ State.reset with acc := one, fSlot := { FSlot.reset with op := 0x77, cnt := 9 } }) ≠ State.reset := by
  decide +kernel

/-- The stuck machine of vector V18's last row. -/
def waiting : State := { State.reset with
  fSlot := { busy := true, op := 0x01, tag := 3, cmd := 0x00000301, cnt := 10 }, cmd := [0x00000401] }

theorem witness_TooFewBeatsIsAWait : waiting.rst = false ∧ waiting.agenda = [] ∧ waitsForBeats waiting ∧
    waiting.sSlot.busy = false ∧ waiting.oq = [] := ⟨by decide, by decide, ⟨by decide, by decide⟩, by decide, by decide⟩
theorem witness_PromisedRecordsNeverChange : EngineInv full ∧ full.rst = false ∧ inputsHeld full = true ∧
    ∃ t, step full = .next t := ⟨full_meets_the_invariant, by decide, by decide, _, rfl⟩
theorem witness_EveryPromisedRecordIsDelivered : EngineInv full ∧ full.rst = false ∧ full.agenda = [] ∧
    full.outReady = true := ⟨full_meets_the_invariant, by decide, by decide, by decide⟩
theorem witness_AnyPartitionGivesEachDigest (b : Block) :
    ([[2], [], [1, 0]] : List (List Nat)).flatten.Perm (List.range [b, b, b].length) := by
  show [2, 1, 0].Perm [0, 1, 2]
  decide
theorem witness_PartitionGivesEachIndexOnce : 9 < 10 ∧ (0 : Int) ≤ 0 := by decide
theorem witness_EnginesDoNotInteract : ∃ after, ([State.reset, offered 0x00000001] : Cluster)[1]? = some (offered 0x00000001) ∧
    clusterRun [State.reset, offered 0x00000001] [1, 0, 1] = .next after := ⟨_, rfl, rfl⟩

/-- A machine to which a whole job is offered, its moves next. -/
def offeredJob (i : Instr) (bs : List Beat) : State :=
  { State.reset with cmd := [encode i], beats := bs, agenda := jobMoves bs.length }

/-- The first of the conditions under which a whole job is stated; the streams are met by the definition. -/
theorem witness_whole_jobs (i : Instr) (bs : List Beat) : (offeredJob i bs).rst = false ∧ (offeredJob i bs).fault = false ∧
    (offeredJob i bs).fSlot.busy = false ∧ (offeredJob i bs).sSlot.busy = false ∧
    (offeredJob i bs).oq.length < (offeredJob i bs).cfg.outDepth := by
  refine ⟨rfl, rfl, rfl, rfl, ?_⟩
  show 0 < 2
  decide
theorem witness_Hash256GivesTheDigest : (offeredJob (.hash256 7) (blockBeats (zeroBytes 4096))).cmd = encode (.hash256 7) :: [] ∧
    (offeredJob (.hash256 7) (blockBeats (zeroBytes 4096))).beats = blockBeats (zeroBytes 4096) ++ [] ∧
    (offeredJob (.hash256 7) (blockBeats (zeroBytes 4096))).agenda = jobMoves 64 ++ [] := by
  simp [offeredJob, blockBeats]
theorem witness_Hash128GivesTheTruncatedDigest : (offeredJob (.hash128 7) (blockBeats (zeroBytes 4096))).cmd = encode (.hash128 7) :: [] ∧
    (offeredJob (.hash128 7) (blockBeats (zeroBytes 4096))).beats = blockBeats (zeroBytes 4096) ++ [] ∧
    (offeredJob (.hash128 7) (blockBeats (zeroBytes 4096))).agenda = jobMoves 64 ++ [] := by
  simp [offeredJob, blockBeats]
theorem witness_FoldGivesTheIntermediate : (offeredJob (.fold 7) (blockBeats (zeroBytes 4096))).cmd = encode (.fold 7) :: [] ∧
    (offeredJob (.fold 7) (blockBeats (zeroBytes 4096))).beats = blockBeats (zeroBytes 4096) ++ [] ∧
    (offeredJob (.fold 7) (blockBeats (zeroBytes 4096))).agenda = jobMoves 64 ++ [] := by
  simp [offeredJob, blockBeats]
theorem witness_Sm3cfGivesTheCompression : (offeredJob (.sm3cf 7) [messageBeat one]).cmd = encode (.sm3cf 7) :: [] ∧
    (offeredJob (.sm3cf 7) [messageBeat one]).beats = messageBeat one :: [] ∧
    (offeredJob (.sm3cf 7) [messageBeat one]).agenda = jobMoves 1 ++ [] := by
  simp [offeredJob]

/-- The one `SM3CF` job, run to its end with a host that is ready: one record for one command. -/
theorem witness_FinishedRunHasOneRecordPerCommand :
    seen (run 5 { offeredJob (.sm3cf 7) [messageBeat one] with agenda := [], outReady := true }) (fun t =>
      (t.cmd.isEmpty && t.beats.isEmpty && !t.fSlot.busy && !t.sSlot.busy && t.oq.isEmpty && !t.fault,
        t.delivered.length)) = some (true, 1) ∧
    (offeredJob (.sm3cf 7) [messageBeat one]).busy = false := by decide +kernel
theorem witness_RunningFoldEqualsFold : (List.range 64).reverse.Perm (List.range 64) := List.reverse_perm _
/-- A block and the block with its 64 lanes in reverse order meet the last clause; the first lane and the last one, and
the first and the last position, meet the others. -/
theorem witness_FoldIsLinear (x : Block) : (63 < 64 ∧ 0 < 64) ∧ (List.range 64).reverse.Perm (List.range 64) ∧
    ∀ n k, n < 64 → k < 64 →
      byteAt (Vector.ofFn fun q : Fin 4096 => byteAt x (64 * (63 - q.val / 64) + q.val % 64)) (64 * n + k) =
        byteAt x (64 * (List.range 64).reverse.getD n 0 + k) := by
  refine ⟨by decide, List.reverse_perm _, fun n k hn hk => ?_⟩
  rw [byteAt_ofFn _ (by omega : 64 * n + k < 4096)]
  have hd : (64 * n + k) / 64 = n := by omega
  have hm : (64 * n + k) % 64 = k := by omega
  have hr : (List.range 64).reverse.getD n 0 = 63 - n := by simp [List.getD, hn]
  simp only [hd, hm, hr]
theorem witness_FoldCancelsEvenOccurrences : ∀ v : Byte,
    ((List.range 64).countP fun l => byteAt (zeroBytes 4096) (64 * l + 63) == v) % 2 = 0 := by
  intro v
  simp only [byteAt_zeroBytes]
  cases h : (0x00#8 == v) <;> simp [List.countP_true, List.countP_false]
theorem witness_ExpansionFollowsTheRecurrence : 0 < 16 ∧ 15 < 16 ∧ 16 ≤ 16 ∧ 16 ≤ 67 ∧ 67 ≤ 67 := by decide
theorem witness_HiddenRegistersHoldTheResult :
    (∀ op ∈ [Op.hash256, .hash128, .fold, .sm3cf], ∀ pad ∈ [PadMode.pad0, .pad1],
      (compressing pad op 5 one).rst = false ∧ (compressing pad op 5 one).sSlot.op = op.code ∧
      (compressing pad op 5 one).sSlot.busy = true ∧
      (compressing pad op 5 one).oq.length < (compressing pad op 5 one).cfg.outDepth) ∧
    15 < (lenOf .hash128).toNat ∧ 31 < (lenOf .hash256).toNat ∧ 0 < (lenOf .sm3cf).toNat := by decide +kernel
/-- An idle engine whose host offers some words and beats and is ready. -/
def idle (words : List Word) (bs : List Beat) : State := { State.reset with cmd := words, beats := bs, outReady := true }

theorem idle_meets_the_invariant (words : List Word) (bs : List Beat) : EngineInv (idle words bs) where
  depth := by rfl
  fSlot := fun h => nomatch h
  sSlot := fun h => nomatch h
  queue := Nat.zero_le _
  records := fun _ h => nomatch h
  faultFree := fun h => nomatch h
  causeIff := ⟨fun _ => rfl, fun _ => rfl⟩
  causeRange := Nat.zero_le _
  finfo := fun _ => rfl
  counters := ⟨Nat.zero_le _, Nat.zero_le _⟩

/-- Two engines, the first offered one block and the second nothing: the hypotheses on the start hold of both, and a cluster of
which nothing was asked has joined. -/
theorem witness_JoinGivesEveryDigest (b : Block) :
    (EngineInv (idle (scriptWords (hashIndices .b256 [b] [0])) (scriptBeats (hashIndices .b256 [b] [0]))) ∧
      EngineInv (idle (scriptWords (hashIndices .b256 [b] [])) (scriptBeats (hashIndices .b256 [b] [])))) ∧
    (∀ words bs, (idle words bs).rst = false ∧ (idle words bs).fault = false ∧ (idle words bs).busy = false ∧
      (idle words bs).delivered = [] ∧ (idle words bs).agenda = []) ∧
    clusterRun [idle [] [], idle [] []] [1, 0, 1] = .next [idle [] [], idle [] []] ∧
    joined [idle [] [], idle [] []] (([[], []] : List (List Nat)).map List.length) = true :=
  ⟨⟨idle_meets_the_invariant _ _, idle_meets_the_invariant _ _⟩, fun _ _ => ⟨rfl, rfl, rfl, rfl, rfl⟩, rfl, by decide⟩
/-- The same two engines after the first has run its job to the end and its host has taken the record. -/
theorem witness_JoinGivesEveryDigest_after_a_run : (match clusterRun [idle (scriptWords (hashIndices .b256 [zeroBytes 4096] [0]))
      (scriptBeats (hashIndices .b256 [zeroBytes 4096] [0])), idle [] []] (List.replicate 68 0) with
    | .next after => joined after (([[0], []] : List (List Nat)).map List.length)
    | .fault _ => false
    | .refused _ => false) = true := by decide +kernel
/-- The join of a cluster that ran: one `SM3CF` job on the second of two engines, taken by its host. -/
theorem test_join : (match clusterRun [State.reset,
      { offeredJob (.sm3cf 7) [messageBeat one] with agenda := [], outReady := true }] [1, 1, 1, 0, 1, 1] with
    | .next after => (joined after [0, 1], joined after [0, 2], joined after [1, 1])
    | .fault _ => (false, false, false)
    | .refused _ => (false, false, false)) = (true, false, false) := by decide +kernel
theorem witness_NumberOfEnginesIsFixed : HostConfig.default.wf = true ∧ Config.default.wf = true ∧
    ∃ after, clusterRun (Cluster.reset { numEngines := 2 } Config.default) [1, 0] = .next after :=
  ⟨by decide, by decide, _, rfl⟩
theorem test_no_engine_refused : HostConfig.wf { numEngines := 0 } = false ∧ Cluster.wf [] = false := by decide
/-- A host that has paused has more to send: the run is not finished until it has sent it. -/
theorem test_paused_host_not_finished : ¬finished { State.reset with agenda := [.host (.driveCmd [0x00000001])] } ∧
    ¬finished { State.reset with agenda := [.host (.driveIn [messageBeat one])] } ∧
    finished { State.reset with agenda := [.engine .deliver, .host (.driveOutReady true)] } := by
  refine ⟨fun h => absurd h.2.2.1 (by decide), fun h => absurd h.2.2.1 (by decide), rfl, rfl, by decide, rfl, rfl, rfl, rfl⟩

end Sys2Proof.Tests
end

/-! # The invariant, the promise and the number of engines

The facts of spec/00_scope.md that hold along every run: rule R30's invariant (`EngineInv`), the records promised to the host
(`promised`), and the engines of a cluster with their configurations. -/

namespace Sys2Proof.Machine

variable {s t : State}

/-! ### The records and the counters of the SM3 stage -/

theorem byteAt_padTo64_of_le {n i : Nat} (x : Bytes n) (h : n ≤ i) : byteAt (padTo64 x) i = 0x00#8 := by
  simp [byteAt_padTo64, byteAt_of_le x h]

/-- Every job's record has the form of rule R56. -/
theorem recordOf_wf (pad : PadMode) (op : Op) (tag : BitVec 16) (blk : Bytes 64) : (recordOf pad op tag blk).wf := by
  cases op with
  | hash256 => exact ⟨.inr (.inl rfl), fun _ => byteAt_padTo64_of_le _⟩
  | hash128 => exact ⟨.inl rfl, fun _ => byteAt_padTo64_of_le _⟩
  | fold => exact ⟨.inr (.inr rfl), fun _ => byteAt_of_le _⟩
  | sm3cf => exact ⟨.inr (.inl rfl), fun _ => byteAt_padTo64_of_le _⟩

@[simp] theorem Sm3Core.startJob_j (c : Sm3Core) : c.startJob.j = c.j := rfl
@[simp] theorem Sm3Core.startJob_p (c : Sm3Core) : c.startJob.p = 0#2 := rfl
@[simp] theorem Sm3Core.compress_j (c : Sm3Core) (b : Bytes 64) : (c.compress b).j = 64#7 := rfl
@[simp] theorem Sm3Core.compress_p (c : Sm3Core) (b : Bytes 64) : (c.compress b).p = c.p + 1 := rfl

/-- No job takes the round counter past 64 or the pass counter past 2 (rules R17, R20). -/
theorem Sm3Core.runJob_counters (pad : PadMode) (op : Op) (blk : Bytes 64) {c : Sm3Core} (h : c.j.toNat ≤ 64) :
    (c.runJob pad op blk).j.toNat ≤ 64 ∧ (c.runJob pad op blk).p.toNat ≤ 2 := by
  cases op with
  | fold => simpa [runJob] using h
  | sm3cf => simp [runJob]
  | hash256 | hash128 => cases pad <;> simp [runJob]

/-! ### A job that lacks beats -/

/-- While a job lacks beats, its counter does not overflow (rule R14). -/
theorem foldBeat_cnt {op : Op} (missing : s.fSlot.cnt.toNat < beatsOf op) (d : Bytes 64) :
    (s.foldBeat d).fSlot.cnt.toNat = s.fSlot.cnt.toNat + 1 := by
  have := beatsOf_le op
  rw [State.foldBeat_fSlot]
  bv_omega

/-- What `in_ready` says of a job whose opcode is known. -/
theorem noFault_busy_missing_of_inReady {op : Op} (ready : s.inReady = true) (opcode : Op.ofCode s.fSlot.op = some op) :
    s.fault = false ∧ s.fSlot.busy = true ∧ s.fSlot.cnt.toNat < beatsOf op := by
  simpa [opcode] using (inReady_iff.mp ready).2

/-! ### The invariant under each operation on the state

An operation that is not listed (`takeCmd`, `takeBeat`, `popped`, a move of the host) changes nothing the invariant reads. -/

/-- The state right after a reset meets the invariant, whatever it was before. -/
theorem EngineInv.resetEngine (depth : s.cfg.wf = true) : EngineInv s.resetEngine where
  depth := depth
  fSlot := by simp [FSlot.reset]
  sSlot := by simp [SSlot.reset]
  queue := Nat.zero_le _
  records := by simp
  faultFree := by simp
  causeIff := by simp
  causeRange := by simp
  finfo := by simp
  counters := by simp [Sm3Core.reset]

theorem EngineInv.startJob (h : EngineInv s) (noFault : s.fault = false) (op : Op) (tag : BitVec 16) :
    EngineInv (s.startJob op tag) :=
  { h with
    fSlot := fun _ => ⟨op, by simp, by simp, rfl⟩
    faultFree := by simp [noFault] }

theorem EngineInv.foldBeat (h : EngineInv s) {op : Op} (opcode : Op.ofCode s.fSlot.op = some op)
    (missing : s.fSlot.cnt.toNat < beatsOf op) (noFault : s.fault = false) (d : Bytes 64) : EngineInv (s.foldBeat d) :=
  { h with
    fSlot := fun busy => by
      obtain ⟨op', opcode', -, word⟩ := h.fSlot busy
      obtain rfl : op = op' := Option.some.inj (opcode.symm.trans opcode')
      exact ⟨op, opcode, by rw [foldBeat_cnt missing]; exact missing, word⟩
    faultFree := by simp [noFault] }

theorem EngineInv.freeF (h : EngineInv s) : EngineInv s.freeF :=
  { h with
    fSlot := by simp
    faultFree := fun _ => rfl }

theorem EngineInv.freeS (h : EngineInv s) : EngineInv s.freeS :=
  { h with sSlot := by simp }

theorem EngineInv.loadS (h : EngineInv s) (opcode : (Op.ofCode s.fSlot.op).isSome = true) : EngineInv s.loadS :=
  { h with sSlot := fun _ => opcode }

theorem EngineInv.pushRecord (h : EngineInv s) (room : s.oq.length < s.cfg.outDepth) {r : Record} (wf : r.wf) :
    EngineInv (s.pushRecord r) :=
  { h with
    queue := by simpa using room
    records := by simpa [or_imp, forall_and, wf] using h.records }

theorem EngineInv.handRecord (h : EngineInv s) (r : Record) : EngineInv (s.handRecord r) :=
  { h with
    queue := by simpa using Nat.le_succ_of_le h.queue
    records := fun q hq => h.records q (List.mem_of_mem_drop hq) }

/-- A fault recorded while the F slot is free keeps the invariant. -/
theorem EngineInv.raise (h : EngineInv s) (free : s.fSlot.busy = false) (c : Cause) (info : BitVec 32) :
    EngineInv (s.raise c info) :=
  { h with
    faultFree := fun _ => free
    causeIff := by cases c <;> simp [causeCode]
    causeRange := by cases c <;> simp [causeCode]
    finfo := by simp }

theorem EngineInv.retired (h : EngineInv s) (room : s.oq.length < s.cfg.outDepth) (op : Op) : EngineInv (retired s op) :=
  have core : EngineInv { s with sm3 := s.sm3.runJob s.cfg.padMode op s.sSlot.blk } :=
    { h with counters := Sm3Core.runJob_counters _ _ _ h.counters.1 }
  (core.pushRecord room (recordOf_wf ..)).freeS

theorem EngineInv.takeCmd (h : EngineInv s) : EngineInv s.takeCmd := { h with }

theorem EngineInv.takeBeat (h : EngineInv s) : EngineInv s.takeBeat := { h with }

theorem EngineInv.popped (h : EngineInv s) : EngineInv (popped s) := { h with }

theorem EngineInv.hostMove (h : EngineInv s) (m : HostMove) : EngineInv (hostMove m s) := by
  cases m <;> exact { h with }

/-- A framing fault frees the F slot and records the fault; the two may be done in either order. -/
theorem misframed_eq (s : State) :
    misframed s = s.takeBeat.freeF.raise .frame (frameInfo s.fSlot.cnt s.fSlot.cmd) := rfl

theorem Taken.keepsInv (taken : Taken s t) (h : EngineInv s) : EngineInv t := by
  cases taken with
  | nothing => exact h
  | command _ ready _ => exact h.takeCmd.startJob (cmdReady_iff.mp ready).2.1 _ _
  | illegal _ ready _ => exact h.takeCmd.raise (cmdReady_iff.mp ready).2.2 _ _
  | beat _ ready opcode _ =>
    obtain ⟨noFault, -, missing⟩ := noFault_busy_missing_of_inReady ready opcode
    exact h.takeBeat.foldBeat opcode missing noFault _
  | frame => exact misframed_eq s ▸ h.takeBeat.freeF.raise rfl _ _
  | advance can =>
    obtain ⟨-, -, ⟨op, opcode, -⟩, -⟩ := canAdvance_iff.mp can
    exact (h.loadS (by simp [opcode])).freeF
  | retire can _ => exact h.retired (canRetire_iff.mp can).2.2 _
  | deliver => exact h.handRecord _

theorem Moved.keepsInv (move : Moved s t) (h : EngineInv s) : EngineInv t := by
  cases move with
  | reset _ => exact EngineInv.resetEngine h.popped.depth
  | engine _ taken => exact taken.keepsInv h.popped
  | host _ => exact h.popped.hostMove _

/-- Settles O25: the invariant under each operation, put together along the cases of a move. -/
theorem everyStepKeepsInv : Obligations.EveryStepKeepsInv :=
  fun _ _ h hs => (step_moved hs).keepsInv h

/-- Settles O24: the state after reset is what a reset makes of itself. -/
theorem invHoldsAfterReset : Obligations.InvHoldsAfterReset :=
  EngineInv.resetEngine (s := State.reset) rfl

/-! ### What is promised: one equation per case -/

/-- The records owed for a job whose beats were gathered with this result, and for the words after it: the job's own record,
then what the rest of the stream gives; nothing where the beats ran out or were not properly framed. -/
def owedForJob (pad : PadMode) (op : Op) (tag : BitVec 16) (words : List Word) :
    Option (Bytes 64 × List Beat) → List Record
  | some (blk, rest) => recordOf pad op tag blk :: expected pad words rest
  | none => []

theorem expected_command {pad : PadMode} {c : Word} {i : Instr} (reads : decode c = .command i) (words : List Word)
    (beats : List Beat) :
    expected pad (c :: words) beats = owedForJob pad i.op i.tag words (gather i.op 0 (zeroBytes 64) beats) := by
  rw [expected, reads]
  rfl

theorem expected_illegal {pad : PadMode} {c : Word} (reads : decode c = .illegal) (words : List Word) (beats : List Beat) :
    expected pad (c :: words) beats = [] := by
  rw [expected, reads]

/-- A job that has all its beats takes none from the stream. -/
theorem gather_complete (op : Op) (acc : Bytes 64) (beats : List Beat) :
    gather op (beatsOf op) acc beats = some (acc, beats) := by
  cases beats <;> simp [gather]

/-- A properly framed beat is folded in and counted. -/
theorem gather_framed {op : Op} {n : Nat} {b : Beat} (missing : n < beatsOf op) (last : framed op n b.last = true)
    (acc : Bytes 64) (beats : List Beat) :
    gather op n acc (b :: beats) = gather op (n + 1) (xorBytes acc b.data) beats := by
  simp [gather, missing, missing.ne, last]

/-- A beat that is not properly framed ends the job without a result. -/
theorem gather_misframed {op : Op} {n : Nat} {b : Beat} (missing : n < beatsOf op) (last : framed op n b.last = false)
    (acc : Bytes 64) (beats : List Beat) : gather op n acc (b :: beats) = none := by
  simp [gather, missing.ne, last]

theorem owedByS_free (free : s.sSlot.busy = false) : owedByS s = [] := by
  simp [owedByS, free]

theorem owedByS_busy {op : Op} (busy : s.sSlot.busy = true) (opcode : Op.ofCode s.sSlot.op = some op) :
    owedByS s = [recordOf s.cfg.padMode op s.sSlot.tag s.sSlot.blk] := by
  simp [owedByS, busy, opcode]

theorem owedByIntake_fault (fault : s.fault = true) : owedByIntake s = [] := by
  simp [owedByIntake, fault]

theorem owedByIntake_free (noFault : s.fault = false) (free : s.fSlot.busy = false) :
    owedByIntake s = expected s.cfg.padMode s.cmd s.beats := by
  simp [owedByIntake, noFault, free]

theorem owedByIntake_busy {op : Op} (noFault : s.fault = false) (busy : s.fSlot.busy = true)
    (opcode : Op.ofCode s.fSlot.op = some op) :
    owedByIntake s =
      owedForJob s.cfg.padMode op s.fSlot.tag s.cmd (gather op s.fSlot.cnt.toNat s.acc s.beats) := by
  rw [owedByIntake, noFault, busy, opcode]
  rfl

/-! ### The promise under each step -/

/-- A step of the intake alone keeps the promise when it keeps what the intake owes. -/
theorem promised_of_owedByIntake (delivered : t.delivered = s.delivered) (oq : t.oq = s.oq) (byS : owedByS t = owedByS s)
    (byIntake : owedByIntake t = owedByIntake s) : promised t = promised s := by
  rw [promised, promised, delivered, oq, byS, byIntake]

/-- A command taken owes what its word owed on the stream. -/
theorem owedByIntake_startJob {c : Word} {rest : List Word} {i : Instr} (offered : s.cmd = c :: rest)
    (noFault : s.fault = false) (free : s.fSlot.busy = false) (reads : decode c = .command i) :
    owedByIntake (s.takeCmd.startJob i.op i.tag) = owedByIntake s := by
  rw [owedByIntake_free noFault free, offered, expected_command reads,
    owedByIntake_busy (s := s.takeCmd.startJob i.op i.tag) noFault rfl (Op.ofCode_code _)]
  simp [offered]

/-- A job owes the same before and after a properly framed beat. -/
theorem owedByIntake_foldBeat {b : Beat} {rest : List Beat} {op : Op} (offered : s.beats = b :: rest)
    (noFault : s.fault = false) (busy : s.fSlot.busy = true) (opcode : Op.ofCode s.fSlot.op = some op)
    (missing : s.fSlot.cnt.toNat < beatsOf op) (last : framed op s.fSlot.cnt.toNat b.last = true) :
    owedByIntake (s.takeBeat.foldBeat b.data) = owedByIntake s := by
  rw [owedByIntake_busy noFault busy opcode, offered, gather_framed missing last,
    owedByIntake_busy (s := s.takeBeat.foldBeat b.data) noFault busy opcode,
    foldBeat_cnt (s := s.takeBeat) missing]
  simp [offered]

/-- A job with a beat that is not properly framed owes nothing, and nor does what follows it. -/
theorem owedByIntake_misframed {b : Beat} {rest : List Beat} {op : Op} (offered : s.beats = b :: rest)
    (noFault : s.fault = false) (busy : s.fSlot.busy = true) (opcode : Op.ofCode s.fSlot.op = some op)
    (missing : s.fSlot.cnt.toNat < beatsOf op) (last : framed op s.fSlot.cnt.toNat b.last = false) :
    owedByIntake (misframed s) = owedByIntake s := by
  rw [owedByIntake_fault rfl, owedByIntake_busy noFault busy opcode, offered, gather_misframed missing last, owedForJob]

/-- An illegal word taken owes what it owed on the stream, nothing, and nor does what follows it. -/
theorem owedByIntake_illegal {c : Word} {rest : List Word} (offered : s.cmd = c :: rest) (noFault : s.fault = false)
    (free : s.fSlot.busy = false) (reads : decode c = .illegal) :
    owedByIntake (s.takeCmd.raise .illcmd c) = owedByIntake s := by
  rw [owedByIntake_fault rfl, owedByIntake_free noFault free, offered, expected_illegal reads]

/-- The hand-over moves the job's record from what the intake owes to what the S slot owes. -/
theorem promised_advance {op : Op} (noFault : s.fault = false) (busy : s.fSlot.busy = true)
    (opcode : Op.ofCode s.fSlot.op = some op) (complete : s.fSlot.cnt.toNat = beatsOf op) (free : s.sSlot.busy = false) :
    promised s.loadS.freeF = promised s := by
  have before : owedByIntake s =
      recordOf s.cfg.padMode op s.fSlot.tag s.acc :: expected s.cfg.padMode s.cmd s.beats := by
    rw [owedByIntake_busy noFault busy opcode, complete, gather_complete, owedForJob]
  rw [promised, promised, before, owedByS_free free, owedByIntake_free (s := s.loadS.freeF) noFault rfl,
    owedByS_busy (s := s.loadS.freeF) rfl opcode]
  simp

/-- Retiring moves the job's record from what the S slot owes to the queue. -/
theorem promised_retired {op : Op} (busy : s.sSlot.busy = true) (opcode : Op.ofCode s.sSlot.op = some op) :
    promised (retired s op) = promised s := by
  have intake : owedByIntake (retired s op) = owedByIntake s := rfl
  rw [promised, promised, intake, owedByS_busy busy opcode, owedByS_free rfl]
  simp [retired]

/-- Delivering moves the head record from the queue to the host. -/
theorem promised_handRecord {r : Record} {rest : List Record} (head : s.oq = r :: rest) :
    promised (s.handRecord r) = promised s := by
  have byS : owedByS (s.handRecord r) = owedByS s := rfl
  have intake : owedByIntake (s.handRecord r) = owedByIntake s := rfl
  rw [promised, promised, byS, intake]
  simp [head]

/-- Where each record stands may change, from intake to S slot to queue to host; which records there are does not. -/
theorem Taken.promised_eq (taken : Taken s t) (h : EngineInv s) : promised t = promised s := by
  cases taken with
  | nothing => rfl
  | command offered ready reads =>
    obtain ⟨-, noFault, free⟩ := cmdReady_iff.mp ready
    exact promised_of_owedByIntake rfl rfl rfl (owedByIntake_startJob offered noFault free reads)
  | illegal offered ready reads =>
    obtain ⟨-, noFault, free⟩ := cmdReady_iff.mp ready
    exact promised_of_owedByIntake rfl rfl rfl (owedByIntake_illegal offered noFault free reads)
  | beat offered ready opcode last =>
    obtain ⟨noFault, busy, missing⟩ := noFault_busy_missing_of_inReady ready opcode
    exact promised_of_owedByIntake rfl rfl rfl (owedByIntake_foldBeat offered noFault busy opcode missing last)
  | frame offered ready opcode last =>
    obtain ⟨noFault, busy, missing⟩ := noFault_busy_missing_of_inReady ready opcode
    exact promised_of_owedByIntake rfl rfl rfl (owedByIntake_misframed offered noFault busy opcode missing last)
  | advance can =>
    obtain ⟨-, busy, ⟨op, opcode, complete⟩, free⟩ := canAdvance_iff.mp can
    have noFault : s.fault = false := by
      by_contra fault
      simp [h.faultFree (by simpa using fault)] at busy
    exact promised_advance noFault busy opcode complete free
  | retire can opcode => exact promised_retired (canRetire_iff.mp can).2.1 opcode
  | deliver head _ _ => exact promised_handRecord head

/-- A host's move that holds the inputs drives `out_ready`. -/
theorem inputsHeld_host {m : HostMove} {rest : List Move} (head : s.agenda = .host m :: rest)
    (held : inputsHeld s = true) : ∃ level, m = .driveOutReady level := by
  cases m with
  | driveOutReady level => exact ⟨level, rfl⟩
  | driveRst | driveCmd | driveIn => simp [inputsHeld, head] at held

/-- Settles O32: each step moves records along the pipeline and keeps the whole list. -/
theorem promisedRecordsNeverChange : Obligations.PromisedRecordsNeverChange := by
  intro s t h low held hs
  cases step_moved hs with
  | reset high => simp [low] at high
  | engine _ taken => exact taken.promised_eq h.popped
  | host head =>
    obtain ⟨level, rfl⟩ := inputsHeld_host head held
    rfl

/-! ### The engines of a cluster -/

theorem Taken.cfg_eq (taken : Taken s t) : t.cfg = s.cfg := by
  cases taken <;> rfl

/-- No move of the machine changes the configuration (rule R26). -/
theorem step_cfg (h : step s = .next t) : t.cfg = s.cfg := by
  cases step_moved h with
  | reset _ => rfl
  | engine _ taken => exact taken.cfg_eq
  | @host m _ _ => cases m <;> rfl

theorem clusterStep_cfg {engines after : Cluster} {w : Nat} (h : clusterStep engines w = .next after) :
    after.map (·.cfg) = engines.map (·.cfg) := by
  obtain ⟨-, rfl⟩ | ⟨s, t, hs, ht, rfl⟩ := clusterStep_cases h
  · rfl
  · obtain ⟨hw, rfl⟩ := List.getElem?_eq_some_iff.mp hs
    rw [List.map_set, step_cfg ht]
    simp [← List.map_set]

theorem clusterRun_cfg {engines after : Cluster} {schedule : List Nat} (h : clusterRun engines schedule = .next after) :
    after.map (·.cfg) = engines.map (·.cfg) := by
  induction schedule generalizing engines with
  | nil => cases h; rfl
  | cons w ws ih =>
    obtain ⟨mid, first, rest⟩ := clusterRun_cons h
    exact (ih rest).trans (clusterStep_cfg first)

theorem hostConfig_reset (h : HostConfig) (c : Config) : (Cluster.reset h c).hostConfig = h := by
  simp [Cluster.hostConfig, Cluster.reset]

/-- Settles O57: the configurations are those of the start, engine by engine, so their number is too. -/
theorem numberOfEnginesIsFixed : Obligations.NumberOfEnginesIsFixed := by
  refine ⟨fun h c => ⟨hostConfig_reset h c, ?_, decide_eq_true_iff, fun s hs => ?_⟩, rfl, fun engines after _ run => ?_⟩
  · rw [Cluster.wf, hostConfig_reset]
  · obtain rfl := List.eq_of_mem_replicate hs
    exact ⟨rfl, fun wf => EngineInv.resetEngine (s := { State.reset with cfg := c }) wf⟩
  · have cfgs := clusterRun_cfg run
    have number : after.length = engines.length := by simpa using congrArg List.length cfgs
    exact ⟨congrArg HostConfig.mk number, cfgs⟩

end Sys2Proof.Machine


/-! # What every step keeps of the state, and what no step reads

The rules of spec/10_state.md: the registers no rule reads (`readable`), the fault record, the configuration, the jobs in
flight, the hidden registers after a retire step, the command a step runs, and the fields of `STATUS`. -/

namespace Sys2Proof.Machine

variable {s t : State}

/-! ### The parts of a state that `readable` keeps -/

@[simp] theorem readable_fSlot_busy (s : State) : (readable s).fSlot.busy = s.fSlot.busy := by
  cases busy : s.fSlot.busy <;> simp [readable, busy, FSlot.reset]

@[simp] theorem readable_sSlot_busy (s : State) : (readable s).sSlot.busy = s.sSlot.busy := by
  cases busy : s.sSlot.busy <;> simp [readable, busy, SSlot.reset]

theorem readable_fSlot_of_busy (busy : s.fSlot.busy = true) : (readable s).fSlot = s.fSlot := by
  simp [readable, busy]

theorem readable_sSlot_of_busy (busy : s.sSlot.busy = true) : (readable s).sSlot = s.sSlot := by
  simp [readable, busy]

@[simp] theorem readable_cmdReady (s : State) : (readable s).cmdReady = s.cmdReady := by
  rw [State.cmdReady, readable_fSlot_busy]
  rfl

@[simp] theorem readable_outValid (s : State) : (readable s).outValid = s.outValid := rfl

@[simp] theorem readable_inReady (s : State) : (readable s).inReady = s.inReady := by
  cases busy : s.fSlot.busy with
  | false => simp [State.inReady, busy]
  | true =>
    rw [State.inReady, State.beatsMissing, State.fBeats, readable_fSlot_of_busy busy]
    rfl

@[simp] theorem readable_canAdvance (s : State) : (readable s).canAdvance = s.canAdvance := by
  cases busy : s.fSlot.busy with
  | false => simp [State.canAdvance, busy]
  | true =>
    rw [State.canAdvance, State.beatsComplete, State.fBeats, readable_fSlot_of_busy busy, readable_sSlot_busy]
    rfl

@[simp] theorem readable_canRetire (s : State) : (readable s).canRetire = s.canRetire := by
  rw [State.canRetire, readable_sSlot_busy]
  rfl

theorem enabled_readable (s : State) : enabled (readable s) = enabled s := by
  funext e
  cases e with
  | acceptCmd => exact congrArg (· && s.cmdValid) (readable_cmdReady s)
  | acceptBeat => exact congrArg (· && s.inValid) (readable_inReady s)
  | advance => exact readable_canAdvance s
  | retire => exact readable_canRetire s
  | deliver => rfl

/-! ### The operations read nothing that `readable` erases -/

/-- What `readable` erases, it erases once and for all. -/
theorem readable_readable (s : State) : readable (readable s) = readable s := by
  cases fBusy : s.fSlot.busy <;> cases sBusy : s.sSlot.busy <;>
    simp [readable, fBusy, sBusy, FSlot.reset, SSlot.reset]

theorem readable_startJob (s : State) (op : Op) (tag : BitVec 16) :
    readable ((readable s).startJob op tag) = readable (s.startJob op tag) := by
  cases busy : s.sSlot.busy <;> simp [readable, State.startJob, busy, SSlot.reset]

theorem takeBeat_readable (s : State) : (readable s).takeBeat = readable s.takeBeat := rfl

theorem foldBeat_readable (busy : s.fSlot.busy = true) (d : Bytes 64) :
    (readable s).foldBeat d = readable (s.foldBeat d) := by
  simp [readable, State.foldBeat, busy]

theorem loadS_readable (busy : s.fSlot.busy = true) : (readable s).loadS = readable s.loadS := by
  simp [readable, State.loadS, busy]

theorem readable_freeF (s : State) : readable (readable s).freeF = readable s.freeF := by
  cases busy : s.sSlot.busy <;> simp [readable, State.freeF, busy, SSlot.reset]

theorem readable_retired (busy : s.sSlot.busy = true) (op : Op) :
    readable (retired (readable s) op) = readable (retired s op) := by
  cases fBusy : s.fSlot.busy <;> simp [readable, retired, State.freeS, State.pushRecord, busy, fBusy, FSlot.reset]

/-! ### The steps read nothing that `readable` erases -/

/-- Doing nothing gives two outcomes that read alike. -/
theorem readableOutcome_next_readable (s : State) :
    readableOutcome (.next (readable s)) = readableOutcome (.next s) :=
  congrArg Host.Outcome.next (readable_readable s)

/-- A guarded step reads nothing that `readable` erases when its guard does not and, where the guard holds, its effect
does not. -/
theorem readableOutcome_guarded {guard : Bool} {after before : Host.Outcome State Fault Refusal}
    (effect : guard = true → readableOutcome after = readableOutcome before) :
    readableOutcome (if guard then after else .next (readable s)) =
      readableOutcome (if guard then before else .next s) := by
  cases guard with
  | true => exact effect rfl
  | false => exact readableOutcome_next_readable s

theorem readable_acceptJob (op : Op) (tag : BitVec 16) (s : State) :
    readableOutcome (acceptJob op tag (readable s)) = readableOutcome (acceptJob op tag s) := by
  rw [acceptJob, acceptJob, readable_cmdReady]
  exact readableOutcome_guarded fun _ => congrArg Host.Outcome.next (readable_startJob s.takeCmd op tag)

theorem readable_acceptIllegal (c : Word) (s : State) :
    readableOutcome (acceptIllegal c (readable s)) = readableOutcome (acceptIllegal c s) := by
  rw [acceptIllegal, acceptIllegal, readable_cmdReady]
  exact readableOutcome_guarded fun _ => readableOutcome_next_readable (s.takeCmd.raise .illcmd c)

theorem readable_acceptCmd (s : State) :
    readableOutcome (acceptCmd (readable s)) = readableOutcome (acceptCmd s) := by
  have offered : (readable s).cmd = s.cmd := rfl
  cases words : s.cmd with
  | nil =>
    simp only [acceptCmd, offered, words]
    exact readableOutcome_next_readable s
  | cons c rest =>
    cases reads : decode c with
    | command i =>
      simp only [acceptCmd, offered, words, reads, exec_eq_acceptJob]
      exact readable_acceptJob i.op i.tag s
    | illegal =>
      simp only [acceptCmd, offered, words, reads]
      exact readable_acceptIllegal c s

theorem readable_acceptBeat (b : Beat) (s : State) :
    readableOutcome (acceptBeat b (readable s)) = readableOutcome (acceptBeat b s) := by
  rw [acceptBeat, acceptBeat, readable_inReady]
  refine readableOutcome_guarded fun ready => ?_
  obtain ⟨-, -, busy, -⟩ := inReady_iff.mp ready
  rw [readable_fSlot_of_busy busy]
  split
  · rw [takeBeat_readable, foldBeat_readable (s := s.takeBeat) busy]
    exact readableOutcome_next_readable _
  · exact congrArg Host.Outcome.next (readable_freeF (s.takeBeat.raise .frame (frameInfo s.fSlot.cnt s.fSlot.cmd)))

theorem readable_offeredBeat (s : State) :
    readableOutcome (offeredBeat (readable s)) = readableOutcome (offeredBeat s) := by
  have offered : (readable s).beats = s.beats := rfl
  cases beats : s.beats with
  | nil =>
    simp only [offeredBeat, offered, beats]
    exact readableOutcome_next_readable s
  | cons b rest =>
    simp only [offeredBeat, offered, beats]
    exact readable_acceptBeat b s

theorem readable_advance (s : State) :
    readableOutcome (advance (readable s)) = readableOutcome (advance s) := by
  rw [advance, advance, readable_canAdvance]
  refine readableOutcome_guarded fun can => ?_
  obtain ⟨-, busy, -⟩ := canAdvance_iff.mp can
  rw [loadS_readable busy]
  exact congrArg Host.Outcome.next (readable_freeF s.loadS)

theorem readable_retire (s : State) :
    readableOutcome (retire (readable s)) = readableOutcome (retire s) := by
  rw [retire, retire, readable_canRetire]
  refine readableOutcome_guarded fun can => ?_
  obtain ⟨-, busy, -⟩ := canRetire_iff.mp can
  have slot := readable_sSlot_of_busy busy
  cases opcode : Op.ofCode s.sSlot.op with
  | none => simp only [slot, opcode]
  | some op =>
    have effect := readable_retired busy op
    simp only [retired, slot] at effect
    simp only [slot, opcode]
    exact congrArg Host.Outcome.next effect

theorem readable_deliver (s : State) :
    readableOutcome (deliver (readable s)) = readableOutcome (deliver s) := by
  have queue : (readable s).oq = s.oq := rfl
  cases records : s.oq with
  | nil =>
    simp only [deliver, queue, records]
    exact readableOutcome_next_readable s
  | cons r rest =>
    simp only [deliver, queue, records]
    exact readableOutcome_guarded fun _ => readableOutcome_next_readable (s.handRecord r)

/-- No step of the engine reads what `readable` erases. -/
theorem readable_engineStep (e : EngineStep) (s : State) :
    readableOutcome (engineStep e (readable s)) = readableOutcome (engineStep e s) := by
  cases high : s.rst with
  | true => rw [engineStep_of_rst high, engineStep_of_rst (s := readable s) high]; rfl
  | false =>
    have low : (readable s).rst = false := high
    cases e with
    | acceptCmd => simpa [engineStep, high, low] using readable_acceptCmd s
    | acceptBeat => simpa [engineStep, high, low] using readable_offeredBeat s
    | advance => simpa [engineStep, high, low] using readable_advance s
    | retire => simpa [engineStep, high, low] using readable_retire s
    | deliver => simpa [engineStep, high, low] using readable_deliver s

theorem readable_defaultMove (s : State) :
    readableOutcome (defaultMove (readable s)) = readableOutcome (defaultMove s) := by
  cases high : s.rst with
  | true =>
    have high' : (readable s).rst = true := high
    simp only [defaultMove, high, high', if_true]
    rfl
  | false =>
    have low : (readable s).rst = false := high
    have first : firstEnabled (readable s) = firstEnabled s := by rw [firstEnabled, enabled_readable, firstEnabled]
    simp only [defaultMove, high, low, first]
    cases firstEnabled s with
    | some e => exact readable_engineStep e s
    | none => exact readableOutcome_next_readable s

/-- No move of the host reads or writes what `readable` erases. -/
theorem hostMove_readable (m : HostMove) (s : State) : hostMove m (readable s) = readable (hostMove m s) := by
  cases m <;> rfl

/-- No move of the machine reads what `readable` erases. -/
theorem readable_step (s : State) : readableOutcome (step (readable s)) = readableOutcome (step s) := by
  have moves : (readable s).agenda = s.agenda := rfl
  cases agenda : s.agenda with
  | nil =>
    simp only [step, nextMove, moves, agenda]
    exact readable_defaultMove s
  | cons m rest =>
    cases m with
    | engine e =>
      rw [step_of_agenda agenda, step_of_agenda (s := readable s) agenda]
      exact readable_engineStep e { s with agenda := rest }
    | host m =>
      simp only [step, nextMove, moves, agenda]
      have commutes : hostMove m { readable s with agenda := rest } = readable (hostMove m { s with agenda := rest }) :=
        hostMove_readable m { s with agenda := rest }
      rw [commutes]
      exact readableOutcome_next_readable _

/-- Settles O30: a step's readable outcome is that of the readable state, and the two readable states are one. -/
theorem unspecifiedRegistersAreNeverRead : Obligations.UnspecifiedRegistersAreNeverRead := by
  intro s t same
  calc readableOutcome (step s) = readableOutcome (step (readable s)) := (readable_step s).symm
    _ = readableOutcome (step (readable t)) := by rw [same]
    _ = readableOutcome (step t) := readable_step t

/-! ### The fault record -/

/-- A recorded fault closes both inputs, so no step records another. -/
theorem Taken.keepsFault (taken : Taken s t) (fault : s.fault = true) :
    t.fault = true ∧ t.cause = s.cause ∧ t.finfo = s.finfo := by
  cases taken with
  | illegal _ ready _ => simp [cmdReady_iff, fault] at ready
  | frame _ ready _ _ => simp [inReady_iff, fault] at ready
  | nothing | command | beat | advance | retire | deliver => exact ⟨fault, rfl, rfl⟩

theorem hostMove_keepsFault (m : HostMove) (s : State) :
    (hostMove m s).fault = s.fault ∧ (hostMove m s).cause = s.cause ∧ (hostMove m s).finfo = s.finfo := by
  cases m <;> exact ⟨rfl, rfl, rfl⟩

/-- Settles O21: no step and no move of the host writes a recorded fault, and `Reset` clears it. -/
theorem faultStaysUntilReset : Obligations.FaultStaysUntilReset := by
  refine ⟨fun s t low fault hs => ?_, fun s e high => ⟨_, engineStep_of_rst high, rfl, rfl, rfl⟩⟩
  cases step_moved hs with
  | reset high => simp [low] at high
  | engine _ taken => exact taken.keepsFault fault
  | @host m _ _ =>
    obtain ⟨faultKept, record⟩ := hostMove_keepsFault m (popped s)
    exact ⟨faultKept.trans fault, record⟩

/-! ### The configuration -/

theorem exec_cfg {i : Instr} (h : exec i s = .next t) : t.cfg = s.cfg := by
  rw [exec_eq_acceptJob, acceptJob] at h
  split at h <;> cases h <;> rfl

theorem engineStep_cfg {e : EngineStep} (h : engineStep e s = .next t) : t.cfg = s.cfg := by
  cases rst : s.rst with
  | true => rw [engineStep_of_rst rst] at h; cases h; rfl
  | false => exact (engineStep_taken rst h).cfg_eq

/-- Settles O23: every outcome of a step, a command or an engine step carries the configuration it began with. -/
theorem configurationNeverChanges : Obligations.ConfigurationNeverChanges :=
  ⟨fun _ _ => step_cfg, fun _ _ _ => exec_cfg, fun _ _ _ => engineStep_cfg⟩

/-! ### The jobs in flight -/

/-- Each slot holds at most one job in flight (rule R30 (f)). -/
theorem inFlight_length (s : State) :
    (inFlight s).length = s.oq.length + s.sSlot.busy.toNat + s.fSlot.busy.toNat := by
  cases sBusy : s.sSlot.busy <;> cases fBusy : s.fSlot.busy <;> simp [inFlight, sBusy, fBusy]

theorem busy_iff_inFlight : s.busy = true ↔ inFlight s ≠ [] := by
  cases sBusy : s.sSlot.busy <;> cases fBusy : s.fSlot.busy <;> simp [inFlight, State.busy, sBusy, fBusy]

/-- Settles O27: one job in each busy slot, and the queue within its depth. -/
theorem jobsInFlightAreBounded : Obligations.JobsInFlightAreBounded := by
  intro s h
  have queue := h.queue
  have sAtMostOne := s.sSlot.busy.toNat_le
  have fAtMostOne := s.fSlot.busy.toNat_le
  exact ⟨by rw [inFlight_length]; omega, busy_iff_inFlight⟩

/-- The tags of the records taken and of the jobs in flight, in the order the commands came. -/
def tagsInOrder (s : State) : List (BitVec 16) := s.delivered.map (·.tag) ++ inFlight s

/-- A command's transfer adds its tag at the end. -/
theorem tagsInOrder_startJob (free : s.fSlot.busy = false) (op : Op) (tag : BitVec 16) :
    tagsInOrder (s.takeCmd.startJob op tag) = tagsInOrder s ++ [tag] := by
  simp [tagsInOrder, inFlight, free]

/-- A framing fault drops the last tag, its job's. -/
theorem tagsInOrder_misframed (busy : s.fSlot.busy = true) :
    tagsInOrder (misframed s) ++ [s.fSlot.tag] = tagsInOrder s := by
  simp [tagsInOrder, inFlight, misframed, busy]

theorem tagsInOrder_advance (busy : s.fSlot.busy = true) (free : s.sSlot.busy = false) :
    tagsInOrder s.loadS.freeF = tagsInOrder s := by
  simp [tagsInOrder, inFlight, busy, free]

theorem tagsInOrder_retired (busy : s.sSlot.busy = true) (op : Op) : tagsInOrder (retired s op) = tagsInOrder s := by
  simp [tagsInOrder, inFlight, retired, recordOf, busy]

theorem tagsInOrder_handRecord {r : Record} {rest : List Record} (head : s.oq = r :: rest) :
    tagsInOrder (s.handRecord r) = tagsInOrder s := by
  simp [tagsInOrder, inFlight, head]

/-- Settles O28: what each step does to the list of tags, case by case. -/
theorem jobsKeepCommandOrder : Obligations.JobsKeepCommandOrder := by
  intro s t e _ low hs
  cases engineStep_taken low hs with
  | nothing | illegal | beat => exact .inl rfl
  | @command c rest i offered ready reads =>
    obtain ⟨-, -, free⟩ := cmdReady_iff.mp ready
    exact .inr (.inl ⟨c, i, by simp [offered], reads, tagsInOrder_startJob free i.op i.tag⟩)
  | frame _ ready _ _ =>
    obtain ⟨-, noFault, busy, -⟩ := inReady_iff.mp ready
    exact .inr (.inr ⟨noFault, rfl, rfl, rfl, tagsInOrder_misframed busy⟩)
  | advance can =>
    obtain ⟨-, busy, -, free⟩ := canAdvance_iff.mp can
    exact .inl (tagsInOrder_advance busy free)
  | @retire op can _ => exact .inl (tagsInOrder_retired (canRetire_iff.mp can).2.1 op)
  | deliver head _ _ => exact .inl (tagsInOrder_handRecord head)

/-! ### The hidden registers after a retire step -/

theorem engineStep_retire_of_canRetire {op : Op} (can : s.canRetire = true) (opcode : Op.ofCode s.sSlot.op = some op) :
    engineStep .retire s = .next (retired s op) := by
  have low := (canRetire_iff.mp can).1
  simp [engineStep, low, retire, can, opcode, retired]

/-- A job with a compression leaves its whole digest in `V`; its result is the beginning of it. -/
theorem byteAt_result {op : Op} (compresses : op ≠ .fold) (pad : PadMode) (blk : Bytes 64) (core : Sm3Core) {i : Nat}
    (h : i < (lenOf op).toNat) :
    byteAt (result pad op blk) i = byteAt (ser256 (core.runJob pad op blk).v) i := by
  cases op with
  | fold => exact absurd rfl compresses
  | sm3cf =>
    have h : i < 32 := h
    simp only [result, resultSm3cf, byteAt_padTo64, show i < 64 by omega, if_true]
    rfl
  | hash256 =>
    have h : i < 32 := h
    simp only [result, resultHash256, byteAt_padTo64, show i < 64 by omega, if_true]
    cases pad <;> rfl
  | hash128 =>
    have h : i < 16 := h
    simp only [result, resultHash128, byteAt_padTo64, byteAt_bytesOf, show i < 64 by omega,
      show i < 16 - 0 from h, if_true, Nat.zero_add]
    cases pad <;> rfl

/-- Settles O50: the state after the retire step, its record and its hidden registers read off. -/
theorem hiddenRegistersHoldTheResult : Obligations.HiddenRegistersHoldTheResult := by
  intro s op low code busy room
  have goesOn : engineStep .retire s = .next (retired s op) :=
    engineStep_retire_of_canRetire (canRetire_iff.mpr ⟨low, busy, room⟩) (by simp [code])
  refine ⟨retired s op, _, goesOn, rfl, fun compresses i h => byteAt_result compresses _ _ _ h, ?_⟩
  have core : (retired s op).sm3 = s.sm3.runJob s.cfg.padMode op s.sSlot.blk := rfl
  rw [core]
  cases op with
  | fold | sm3cf => rfl
  | hash256 | hash128 => cases s.cfg.padMode <;> rfl

/-! ### The decoded command -/

theorem engineStep_acceptCmd_of_command {c : Word} {rest : List Word} {i : Instr} (low : s.rst = false)
    (offered : s.cmd = c :: rest) (reads : decode c = .command i) : engineStep .acceptCmd s = exec i s := by
  simp only [engineStep, acceptCmd, low, offered, reads, Bool.false_eq_true, if_false]

/-- With an empty agenda the next move is the first step enabled. -/
theorem step_of_firstEnabled {e : EngineStep} (low : s.rst = false) (agenda : s.agenda = [])
    (first : firstEnabled s = some e) : step s = engineStep e s := by
  simp [step, nextMove, defaultMove, low, agenda, first]

/-- Settles O9: the move is the command's transfer, and the transfer runs the command its word reads as. -/
theorem stepRunsTheDecodedCommand : Obligations.StepRunsTheDecodedCommand := by
  refine ⟨fun s c cs ms i low agenda offered reads => ?_, fun s c cs i low agenda first offered reads => ?_⟩
  · exact (step_of_agenda agenda).trans (engineStep_acceptCmd_of_command (s := { s with agenda := ms }) low offered reads)
  · exact (step_of_firstEnabled low agenda first).trans (engineStep_acceptCmd_of_command low offered reads)

/-! ### The status register -/

theorem busy_iff : s.busy = true ↔ s.fSlot.busy = true ∨ s.sSlot.busy = true ∨ s.oq ≠ [] := by
  simp [State.busy, or_assoc]

/-- The bits of `STATUS`, field by field from the low end (rule R23). -/
theorem status_getLsbD (s : State) (i : Nat) :
    s.status.getLsbD i =
      if i = 0 then s.busy else if i = 1 then s.fault else if i < 4 then false else s.cause.getLsbD (i - 4) := by
  have h0 := BitVec.getLsbD_append (x := s.cause ++ 0#2 ++ BitVec.ofBool s.fault) (y := BitVec.ofBool s.busy) (i := i)
  have h1 := BitVec.getLsbD_append (x := s.cause ++ 0#2) (y := BitVec.ofBool s.fault) (i := i - 1)
  have h2 := BitVec.getLsbD_append (x := s.cause) (y := 0#2) (i := i - 1 - 1)
  refine h0.trans ?_
  rw [h1, h2]
  match i with
  | 0 | 1 | 2 | 3 => simp
  | i + 4 => simp

/-- Settles O20: each field read off the bits of `STATUS`. -/
theorem statusFields : Obligations.StatusFields := by
  intro s
  refine ⟨?_, by rw [status_getLsbD]; rfl, ?_, ?_⟩
  · rw [status_getLsbD]
    exact busy_iff
  · apply BitVec.eq_of_getLsbD_eq
    intro i hi
    simp [status_getLsbD, hi, show 2 + i < 4 by omega, show ¬ 2 + i = 1 by omega]
  · apply BitVec.eq_of_getLsbD_eq
    intro i hi
    simp [status_getLsbD, hi, show ¬ 4 + i = 1 by omega]

end Sys2Proof.Machine


/-! # What the host's three streams carry

The rules of spec/20_memory.md: the bytes on the 512-bit ports, the record offered on the result stream, and the records a
finished run has delivered. -/

namespace Sys2Proof.Machine

variable {s t : State}

/-! ### The bytes on the 512-bit ports -/

/-- The number whose base-256 digits are these bytes, the first byte the lowest digit (rule R35). -/
def bytesToNat : List Byte → Nat := List.foldr (fun b n => b.toNat + 256 * n) 0

@[simp] theorem bytesToNat_nil : bytesToNat [] = 0 := rfl

theorem bytesToNat_cons (b : Byte) (bs : List Byte) : bytesToNat (b :: bs) = 2 ^ 8 * bytesToNat bs + b.toNat :=
  Nat.add_comm _ _

theorem toWires_eq (d : Bytes 64) : toWires d = BitVec.ofNat 512 (bytesToNat d.toList) := rfl

/-- Bit `8k + j` of the number is bit `j` of byte `k`. -/
theorem testBit_bytesToNat (bs : List Byte) (i : Nat) :
    (bytesToNat bs).testBit i = (bs.getD (i / 8) 0#8).getLsbD (i % 8) := by
  induction bs generalizing i with
  | nil => simp
  | cons b bs ih =>
    rw [bytesToNat_cons, Nat.testBit_two_pow_mul_add _ b.isLt]
    split
    · next low => simp [Nat.div_eq_of_lt low, Nat.mod_eq_of_lt low, BitVec.testBit_toNat]
    · next high =>
      have digit : i / 8 = (i - 8) / 8 + 1 := by omega
      have place : i % 8 = (i - 8) % 8 := by omega
      rw [ih, digit, place, List.getD_cons_succ]

theorem byteAt_eq_getD {n : Nat} (d : Bytes n) (k : Nat) : byteAt d k = d.toList.getD k 0#8 := by
  by_cases h : k < n <;> simp [byteAt, h]

/-- Wire `8k + j` carries bit `j` of byte `k`. -/
theorem getLsbD_toWires (d : Bytes 64) {i : Nat} (h : i < 512) :
    (toWires d).getLsbD i = (byteAt d (i / 8)).getLsbD (i % 8) := by
  rw [toWires_eq, BitVec.getLsbD_ofNat, testBit_bytesToNat, byteAt_eq_getD]
  simp [h]

theorem extractLsb'_toWires (d : Bytes 64) {k : Nat} (h : k < 64) :
    (toWires d).extractLsb' (8 * k) 8 = byteAt d k := by
  apply BitVec.eq_of_getLsbD_eq
  intro j hj
  have byte : (8 * k + j) / 8 = k := by omega
  have bit : (8 * k + j) % 8 = j := by omega
  simp [getLsbD_toWires d (show 8 * k + j < 512 by omega), hj, byte, bit]

theorem byteAt_ofWires (w : BitVec 512) {k : Nat} (h : k < 64) : byteAt (ofWires w) k = w.extractLsb' (8 * k) 8 :=
  byteAt_ofFn _ h

theorem ofWires_toWires (d : Bytes 64) : ofWires (toWires d) = d :=
  bytes_ext fun k h => by rw [byteAt_ofWires _ h, extractLsb'_toWires d h]

theorem toWires_ofWires (w : BitVec 512) : toWires (ofWires w) = w := by
  apply BitVec.eq_of_getLsbD_eq
  intro i h
  have position : 8 * (i / 8) + i % 8 = i := Nat.div_add_mod i 8
  rw [getLsbD_toWires _ h, byteAt_ofWires _ (by omega), BitVec.getLsbD_extractLsb', position]
  simp [Nat.mod_lt]

/-- Settles O55: both directions read bit by bit. -/
theorem portsCarryBytesInOrder : Obligations.PortsCarryBytesInOrder :=
  ⟨fun d _ => extractLsb'_toWires d, ofWires_toWires, toWires_ofWires⟩

/-! ### The record offered -/

/-- A retired record enters the queue at the tail, so the head moves only when the host takes it. -/
theorem Taken.keepsOffered {r : Record} (taken : Taken s t) (head : s.oq.head? = some r) :
    (t.oq.head? = some r ∧ t.delivered = s.delivered) ∨ (t.oq = s.oq.drop 1 ∧ t.delivered = s.delivered ++ [r]) := by
  cases taken with
  | nothing | command | illegal | beat | frame | advance => exact .inl ⟨head, rfl⟩
  | retire => exact .inl ⟨by simp [retired, head], rfl⟩
  | deliver offered =>
    obtain rfl : _ = r := by simpa [offered] using head
    exact .inr ⟨rfl, rfl⟩

theorem hostMove_oq_delivered (m : HostMove) (s : State) :
    (hostMove m s).oq = s.oq ∧ (hostMove m s).delivered = s.delivered := by
  cases m <;> exact ⟨rfl, rfl⟩

/-- Settles O29: a step of the engine keeps or hands over the head of the queue, and a move of the host touches neither the
queue nor the records taken. -/
theorem offeredRecordStaysUntilTaken : Obligations.OfferedRecordStaysUntilTaken := by
  intro s t r low head hs
  cases step_moved hs with
  | reset high => simp [low] at high
  | engine _ taken => exact taken.keepsOffered head
  | @host m _ _ =>
    obtain ⟨oq, delivered⟩ := hostMove_oq_delivered m (popped s)
    exact .inl ⟨oq ▸ head, delivered⟩

/-! ### The records of a finished run -/

/-- Every move to come is the engine's own or drives `out_ready`: the host holds its inputs along the whole run. -/
def inputsHeldThroughout (s : State) : Prop :=
  ∀ m ∈ s.agenda, (∃ e, m = .engine e) ∨ ∃ level, m = .host (.driveOutReady level)

theorem inputsHeld_of_throughout (held : inputsHeldThroughout s) : inputsHeld s = true := by
  cases agenda : s.agenda with
  | nil => simp [inputsHeld, agenda]
  | cons m rest =>
    obtain ⟨e, rfl⟩ | ⟨level, rfl⟩ := held m (by simp [agenda]) <;> simp [inputsHeld, agenda]

theorem Taken.rst_eq (taken : Taken s t) : t.rst = s.rst := by
  cases taken <;> rfl

theorem Taken.agenda_eq (taken : Taken s t) : t.agenda = s.agenda := by
  cases taken <;> rfl

/-- The command words in the host's account: those still offered, and one for each job in flight and each record taken. -/
def wordsInAccount (s : State) : Nat := (tagsInOrder s).length + s.cmd.length

theorem wordsInAccount_of_tagsInOrder (tags : tagsInOrder t = tagsInOrder s) (cmd : t.cmd = s.cmd) :
    wordsInAccount t = wordsInAccount s := by
  rw [wordsInAccount, wordsInAccount, tags, cmd]

/-- A command taken is one word less offered and one job more in flight. -/
theorem wordsInAccount_startJob {c : Word} {rest : List Word} (offered : s.cmd = c :: rest) (free : s.fSlot.busy = false)
    (op : Op) (tag : BitVec 16) : wordsInAccount (s.takeCmd.startJob op tag) = wordsInAccount s := by
  simp only [wordsInAccount, tagsInOrder_startJob free, State.startJob_cmd, State.takeCmd_cmd, offered, List.drop_one,
    List.tail_cons, List.length_append, List.length_cons, List.length_nil]
  omega

/-- Only a fault loses a command word. -/
theorem Taken.wordsInAccount_eq (taken : Taken s t) (noFault : t.fault = false) :
    wordsInAccount t = wordsInAccount s := by
  cases taken with
  | nothing | beat => rfl
  | illegal | frame => cases noFault
  | command offered ready _ => exact wordsInAccount_startJob offered (cmdReady_iff.mp ready).2.2 _ _
  | advance can =>
    obtain ⟨-, busy, -, free⟩ := canAdvance_iff.mp can
    exact wordsInAccount_of_tagsInOrder (tagsInOrder_advance busy free) rfl
  | retire can _ => exact wordsInAccount_of_tagsInOrder (tagsInOrder_retired (canRetire_iff.mp can).2.1 _) rfl
  | deliver head _ _ => exact wordsInAccount_of_tagsInOrder (tagsInOrder_handRecord head) rfl

/-- What a run with the inputs held keeps, from its start `s` to its present state `t`. -/
structure HeldRun (s t : State) : Prop where
  inv : EngineInv t
  low : t.rst = false
  held : inputsHeldThroughout t
  promise : promised t = promised s
  /-- as long as no fault is recorded, every command word is accounted for -/
  words : t.fault = false → wordsInAccount t = wordsInAccount s

theorem HeldRun.refl (inv : EngineInv s) (low : s.rst = false) (held : inputsHeldThroughout s) : HeldRun s s :=
  ⟨inv, low, held, rfl, fun _ => rfl⟩

/-- A step of a machine with held inputs: `rst` stays low, the inputs stay held, and only a fault loses a word. -/
theorem step_of_inputsHeldThroughout (low : s.rst = false) (held : inputsHeldThroughout s) (hs : step s = .next t) :
    t.rst = false ∧ inputsHeldThroughout t ∧ (t.fault = false → wordsInAccount t = wordsInAccount s) := by
  have rest : inputsHeldThroughout (popped s) := fun m hm => held m (List.mem_of_mem_drop hm)
  cases step_moved hs with
  | reset high => simp [low] at high
  | engine _ taken =>
    refine ⟨taken.rst_eq.trans low, ?_, taken.wordsInAccount_eq⟩
    rw [inputsHeldThroughout, taken.agenda_eq]
    exact rest
  | host head =>
    obtain ⟨level, rfl⟩ := inputsHeld_host head (inputsHeld_of_throughout held)
    exact ⟨low, rest, fun _ => rfl⟩

theorem HeldRun.step {u : State} (run : HeldRun s t) (hs : step t = .next u) : HeldRun s u := by
  obtain ⟨low, held, words⟩ := step_of_inputsHeldThroughout run.low run.held hs
  have noFaultBefore : u.fault = false → t.fault = false := fun noFault => by
    by_contra fault
    simp [(faultStaysUntilReset.1 t u run.low (by simpa using fault) hs).1] at noFault
  exact {
    inv := everyStepKeepsInv t u run.inv hs
    low := low
    held := held
    promise := (promisedRecordsNeverChange t u run.inv run.low (inputsHeld_of_throughout run.held) hs).trans run.promise
    words := fun noFault => (words noFault).trans (run.words (noFaultBefore noFault)) }

/-- What every step keeps holds at the end of a run. -/
theorem run_keeps {P : State → Prop} (keeps : ∀ s t, P s → step s = .next t → P t) {n : Nat} (start : P s)
    (h : run n s = .next t) : P t := by
  induction n generalizing s with
  | zero => cases h; exact start
  | succ n ih =>
    cases hs : step s with
    | next s' => exact ih (keeps s s' start hs) (run_succ hs ▸ h)
    | fault r => simp [run, hs] at h
    | refused r => simp [run, hs] at h

theorem not_busy_iff : s.busy = false ↔ s.fSlot.busy = false ∧ s.sSlot.busy = false ∧ s.oq = [] := by
  simp [State.busy, and_assoc]

/-- An engine that is idle and not faulted owes what its host offers, and nothing else. -/
theorem promised_of_idle (idle : s.busy = false) (noFault : s.fault = false) :
    promised s = s.delivered ++ expected s.cfg.padMode s.cmd s.beats := by
  obtain ⟨freeF, freeS, queue⟩ := not_busy_iff.mp idle
  simp [promised, queue, owedByS_free freeS, owedByIntake_free noFault freeF]

/-- With no job in flight, the words in the account are those offered and those whose records have been taken. -/
theorem wordsInAccount_of_idle (idle : s.busy = false) : wordsInAccount s = s.delivered.length + s.cmd.length := by
  have none : inFlight s = [] := by
    by_contra some
    simp [busy_iff_inFlight.mpr some] at idle
  simp [wordsInAccount, tagsInOrder, none]

/-- Settles O34: the promise and the account of command words, both kept along the run, read off at its idle start and its
idle end. -/
theorem finishedRunHasOneRecordPerCommand : Obligations.FinishedRunHasOneRecordPerCommand := by
  intro s t n inv low noFault idle held hrun hfin
  obtain ⟨noWord, -, -, freeF, freeS, queue, noFaultAtEnd⟩ := hfin
  have idleAtEnd : t.busy = false := not_busy_iff.mpr ⟨freeF, freeS, queue⟩
  have kept : HeldRun s t := run_keeps (fun _ _ => HeldRun.step) (HeldRun.refl inv low held) hrun
  refine ⟨?_, ?_, idleAtEnd⟩
  · calc t.delivered
      _ = promised t := by rw [promised_of_idle idleAtEnd noFaultAtEnd, noWord, expected, List.append_nil]
      _ = promised s := kept.promise
      _ = s.delivered ++ expected s.cfg.padMode s.cmd s.beats := promised_of_idle idle noFault
  · calc t.delivered.length
      _ = wordsInAccount t := by rw [wordsInAccount_of_idle idleAtEnd, noWord, List.length_nil, Nat.add_zero]
      _ = wordsInAccount s := kept.words noFaultAtEnd
      _ = s.delivered.length + s.cmd.length := wordsInAccount_of_idle idle

end Sys2Proof.Machine

/-! # The encoding of commands, and scripts of digest jobs

The decoder and the encoder on whole words (spec/30_encoding.md rules R49 to R53, R64), and what an engine owes for the
script of a batch, whole or divided among workers (rules R62, R63, R111, R112). -/

namespace Sys2Proof

/-! ### Legal words and their commands -/

theorem FormatC.toWord_inj {f g : FormatC} : f.toWord = g.toWord ↔ f = g := by
  constructor
  · intro h
    simpa using congrArg FormatC.ofWord h
  · exact congrArg FormatC.toWord

/-- A word is the word of this opcode, with the tag it has, exactly when its two checked fields are (rules R50, R52). -/
theorem eq_commandWord_iff {c : Word} {op : Op} :
    c = commandWord op (FormatC.ofWord c).tag ↔ (FormatC.ofWord c).rsv = 0#8 ∧ (FormatC.ofWord c).opc = op.code := by
  rw [commandWord, ← FormatC.toWord_ofWord c, FormatC.toWord_inj, FormatC.toWord_ofWord]
  cases FormatC.ofWord c
  simp

theorem legal_iff_rsv_opc {c : Word} :
    legal c = true ↔ (FormatC.ofWord c).rsv = 0#8 ∧ ∃ op, Op.ofCode (FormatC.ofWord c).opc = some op := by
  simp [legal, FormatC.wf, FormatC.rsvOk, FormatC.opcOk, Option.isSome_iff_exists]

theorem legal_iff_eq_commandWord {c : Word} : legal c = true ↔ ∃ op, c = commandWord op (FormatC.ofWord c).tag := by
  simp only [legal_iff_rsv_opc, eq_commandWord_iff, exists_and_left]
  refine and_congr_right fun _ => exists_congr fun op => ⟨fun h => (Op.code_of_ofCode h).symm, fun h => ?_⟩
  rw [h, Op.ofCode_code]

@[simp] theorem decode_commandWord (op : Op) (tag : BitVec 16) :
    decode (commandWord op tag) = .command (op.instr tag) := by
  simp [decode, commandWord, FormatC.rsvOk]

theorem decode_of_not_legal {c : Word} (h : legal c = false) : decode c = .illegal := by
  simp only [legal, FormatC.wf, Bool.and_eq_false_iff] at h
  obtain rsv | opc := h
  · simp [decode, rsv]
  · simp only [FormatC.opcOk, Option.isSome_eq_false_iff, Option.isNone_iff_eq_none] at opc
    simp [decode, opc]

theorem decode_eq_illegal_iff {c : Word} : decode c = .illegal ↔ legal c = false := by
  refine ⟨fun reads => ?_, decode_of_not_legal⟩
  by_contra h
  obtain ⟨op, word⟩ := legal_iff_eq_commandWord.mp (by simpa using h)
  rw [word, decode_commandWord] at reads
  cases reads

theorem decode_encode (i : Instr) : decode (encode i) = .command i := by
  rw [encode_eq_commandWord, decode_commandWord, Instr.op_instr_tag]

theorem encode_of_decode {c : Word} {i : Instr} (reads : decode c = .command i) : encode i = c := by
  have isLegal : legal c = true := by
    by_contra h
    rw [decode_of_not_legal (by simpa using h)] at reads
    cases reads
  obtain ⟨op, word⟩ := legal_iff_eq_commandWord.mp isLegal
  rw [word, decode_commandWord] at reads
  cases reads
  rw [← commandWord_eq_encode, ← word]

theorem Instr.wf_eq_true (i : Instr) : i.wf = true := by
  simp [Instr.wf, FormatC.wf, FormatC.rsvOk, FormatC.opcOk, Instr.fields]

/-- Settles O1: a word is legal exactly when it is the word of an opcode and its own tag, and such a word is read as that
command. -/
theorem decodeAndEncodeAgree : Obligations.DecodeAndEncodeAgree :=
  ⟨fun i _ => decode_encode i, fun _ i reads => ⟨i.wf_eq_true, encode_of_decode reads⟩, fun _ => decode_eq_illegal_iff⟩

/-! ### The match and mask table -/

theorem FormatC.toWord_and_toWord (f g : FormatC) :
    f.toWord &&& g.toWord = FormatC.toWord { rsv := f.rsv &&& g.rsv, tag := f.tag &&& g.tag, opc := f.opc &&& g.opc } :=
  BitVec.and_append.trans (congrArg (· ++ (f.opc &&& g.opc)) BitVec.and_append)

/-- The mask of rule R64 keeps `RSV` and `OPC` and clears `TAG`. -/
theorem and_mask_eq (c : Word) : c &&& 0xFF0000FF#32 = FormatC.toWord { FormatC.ofWord c with tag := 0#16 } := by
  have mask : 0xFF0000FF#32 = FormatC.toWord { rsv := .allOnes 8, tag := 0#16, opc := .allOnes 8 } := by decide
  rw [mask]
  conv_lhs => rw [← FormatC.toWord_ofWord c, FormatC.toWord_and_toWord]
  simp only [BitVec.and_allOnes, BitVec.and_zero]

/-- A row of the table: the masked word is the row's match exactly when the word is one of the row's opcode. -/
theorem and_mask_eq_commandWord_iff {c : Word} {op : Op} :
    c &&& 0xFF0000FF#32 = commandWord op 0#16 ↔ c = commandWord op (FormatC.ofWord c).tag := by
  rw [and_mask_eq, eq_commandWord_iff, commandWord, FormatC.toWord_inj]
  simp

theorem decode_of_and_mask {c : Word} {op : Op} (row : c &&& 0xFF0000FF#32 = commandWord op 0#16) :
    decode c = .command (op.instr (c.extractLsb' 8 16)) := by
  exact (congrArg decode (and_mask_eq_commandWord_iff.mp row)).trans (decode_commandWord op _)

/-- Settles O2: a row's match is the word of its opcode with tag 0; a word of no row is not legal. -/
theorem decoderIsTheTable : Obligations.DecoderIsTheTable := by
  intro c
  refine ⟨decode_of_and_mask (op := .hash256), decode_of_and_mask (op := .hash128), decode_of_and_mask (op := .fold),
    decode_of_and_mask (op := .sm3cf), fun no1 no2 no3 no4 => ?_⟩
  by_contra h
  rw [decode_eq_illegal_iff, Bool.not_eq_false, legal_iff_eq_commandWord] at h
  obtain ⟨op, word⟩ := h
  have row := and_mask_eq_commandWord_iff.mpr word
  cases op with
  | hash256 => exact no1 row
  | hash128 => exact no2 row
  | fold => exact no3 row
  | sm3cf => exact no4 row

/-- Settles O3: the decoder evaluated on the twelve words. -/
theorem specWordsDecode : Obligations.SpecWordsDecode := by
  unfold Obligations.SpecWordsDecode
  decide

/-! ### The reserved bits -/

theorem rsv_of_legal {c : Word} (h : legal c = true) : c.extractLsb' 24 8 = 0#8 := (legal_iff_rsv_opc.mp h).1

/-- Settles O4: `RSV` is one of the two fields that `Legal` checks, and FINFO's beat index stands in its place. -/
theorem reservedBitsMustBeZero : Obligations.ReservedBitsMustBeZero := by
  refine ⟨fun c i hi isSet => ?_, fun _ => rsv_of_legal,
    fun _ _ => ⟨BitVec.extractLsb'_append_eq_left, BitVec.extractLsb'_append_eq_right⟩⟩
  by_contra h
  rw [decode_eq_illegal_iff, Bool.not_eq_false] at h
  have clear := congrArg (·.getLsbD i) (rsv_of_legal h)
  simp [hi, isSet] at clear

end Sys2Proof

namespace Sys2Proof.Machine

/-! ### The lines of a script -/

/-- The line `M tag=t` assembles to the word of its command: the tag, which has 16 bits, stays clear of `RSV` (rule R60). -/
theorem assembleCommand_eq (op : Op) {t : Nat} (h : t < 2 ^ 16) :
    assembleCommand op t = commandWord op (BitVec.ofNat 16 t) := by
  apply BitVec.eq_of_getLsbD_eq
  intro i hi
  simp only [assembleCommand, commandWord, FormatC.getLsbD_toWord, BitVec.getLsbD_or, BitVec.getLsbD_shiftLeft,
    BitVec.getLsbD_setWidth, BitVec.getLsbD_ofNat, hi]
  by_cases opc : i < 8
  · simp [opc]
  · have above : op.code.getLsbD i = false := BitVec.getLsbD_of_ge _ _ (by omega)
    by_cases tag : i - 8 < 16
    · simp [opc, tag, above, show i - 8 < 32 by omega]
    · have clear : t.testBit (i - 8) = false :=
        Nat.testBit_lt_two_pow (h.trans_le (Nat.pow_le_pow_right (by decide) (by omega)))
      simp [opc, tag, above, clear]

/-- Settles O5: the assembled word is the word of the command, and the decoder reads that back. -/
theorem scriptLineAssemblesToItsCommand : Obligations.ScriptLineAssemblesToItsCommand := by
  intro op t wf
  have h : t ≤ 65535 := by simpa [ScriptLine.wf] using wf
  refine ⟨by simp [scriptWords, lineWords], ?_⟩
  rw [assembleCommand_eq op (by omega), decode_commandWord]

/-! ### The beats of a block -/

/-- A job whose remaining beats are all offered, properly framed, takes just those and XORs them in order. -/
theorem gather_range' {op : Op} (beat : Nat → Beat) (last : ∀ l < beatsOf op, framed op l (beat l).last = true)
    (rest : List Beat) {n k : Nat} (count : n + k = beatsOf op) (acc : Bytes 64) :
    gather op n acc ((List.range' n k).map beat ++ rest) =
      some ((List.range' n k).foldl (fun acc l => xorBytes acc (beat l).data) acc, rest) := by
  induction k generalizing n acc with
  | zero =>
    obtain rfl : n = beatsOf op := count
    exact gather_complete op acc rest
  | succ k ih =>
    have missing : n < beatsOf op := by omega
    rw [List.range'_succ, List.map_cons, List.cons_append, gather_framed missing (last n missing), ih (by omega),
      List.foldl_cons]

/-- The lanes of a block, XORed one after the other, are its fold (rule R66). -/
theorem foldl_laneOf_eq_foldBlock (block : Block) :
    (List.range 64).foldl (fun acc l => xorBytes acc (laneOf block l)) (zeroBytes 64) = foldBlock block := by
  apply bytes_ext
  intro k hk
  rw [foldBlock, byteAt_ofFn _ hk, xorOver, ← byteAt_zeroBytes 64 k]
  refine (List.foldl_hom (byteAt · k) fun acc l => ?_).symm
  rw [byteAt_xorBytes, byteAt_laneOf block l hk]

/-- A job over a block takes the block's 64 beats and no more, and its block is the fold (rules R61, R66). -/
theorem gather_blockBeats {op : Op} (count : beatsOf op = 64) (block : Block) (rest : List Beat) :
    gather op 0 (zeroBytes 64) (blockBeats block ++ rest) = some (foldBlock block, rest) := by
  rw [blockBeats, List.range_eq_range', gather_range' _ _ rest (by omega), ← List.range_eq_range',
    foldl_laneOf_eq_foldBlock]
  intro l _
  simp [framed, count]

/-! ### Digest jobs -/

/-- The record of a digest job over a block is the block's digest record, with the tag number modulo `2^16`. -/
theorem recordOf_hashOp (bits : DigestBits) (pad : PadMode) (t : Nat) (block : Block) :
    recordOf pad (hashOp bits) (BitVec.ofNat 16 (t % 65536)) (foldBlock block) = digestRecord bits pad t block := by
  have tag : BitVec.ofNat 16 (t % 65536) = BitVec.ofNat 16 t := BitVec.eq_of_toNat_eq (by simp)
  rw [tag]
  cases bits <;> rfl

/-- One digest job at the head of the streams: its record, then what the rest gives. -/
theorem expected_digestJob (bits : DigestBits) (pad : PadMode) (t : Nat) (block : Block) (words : List Word)
    (beats : List Beat) :
    expected pad (assembleCommand (hashOp bits) (t % 65536) :: words) (blockBeats block ++ beats) =
      digestRecord bits pad t block :: expected pad words beats := by
  have count : beatsOf (hashOp bits) = 64 := by cases bits <;> rfl
  have reads := decode_commandWord (hashOp bits) (BitVec.ofNat 16 (t % 65536))
  rw [assembleCommand_eq _ (by omega), expected_command reads, Op.instr_op, Op.instr_tag, gather_blockBeats count,
    ← recordOf_hashOp]
  rfl

theorem batchRecords_cons (bits : DigestBits) (pad : PadMode) (t : Nat) (block : Block) (blocks : List Block) :
    batchRecords bits pad t (block :: blocks) = digestRecord bits pad t block :: batchRecords bits pad (t + 1) blocks := rfl

theorem batchRecords_append (bits : DigestBits) (pad : PadMode) (t : Nat) (xs ys : List Block) :
    batchRecords bits pad t (xs ++ ys) = batchRecords bits pad t xs ++ batchRecords bits pad (t + xs.length) ys := by
  simp [batchRecords, List.zipIdx_append]

/-- Settles O35, by induction on the blocks: each job takes its own word and its own beats off the streams. -/
theorem batchOwesEachDigest : Obligations.BatchOwesEachDigest := by
  intro bits pad t blocks
  induction blocks generalizing t with
  | nil => rfl
  | cons block blocks ih => rw [batchRecords_cons, ← ih, ← expected_digestJob]; rfl

/-! ### Workers -/

/-- Tags have 16 bits, so a batch may count them from the base modulo `2^16` (rule R63). -/
theorem hashBatch_mod (bits : DigestBits) (t : Nat) (blocks : List Block) :
    hashBatch bits (t % 65536) blocks = hashBatch bits t blocks := by
  suffices h : ∀ u, u % 65536 = t % 65536 → hashBatch bits u blocks = hashBatch bits t blocks from h _ (Nat.mod_mod _ _)
  induction blocks generalizing t with
  | nil => exact fun _ _ => rfl
  | cons block blocks ih =>
    intro u same
    rw [hashBatch, hashBatch, same, ih (t + 1) (u + 1) (by omega)]

theorem effectiveWorkers_pos (workers : Int) : 0 < effectiveWorkers workers := by
  unfold effectiveWorkers
  split <;> omega

/-- The chunks of all workers together hold the batch (rule R111). -/
theorem le_effectiveWorkers_mul_chunkSize (m : Nat) (workers : Int) :
    m ≤ effectiveWorkers workers * chunkSize m workers := by
  rw [chunkSize, ← Nat.ceilDiv_eq_add_pred_div]
  exact le_smul_ceilDiv (effectiveWorkers_pos workers)

/-- The blocks before a worker's range, then the worker's own, are the blocks before the next worker's range (rule R111). -/
theorem take_append_workerBlocks (blocks : List Block) (workers : Int) (w : Nat) :
    blocks.take (workerRange blocks.length workers w).1 ++ workerBlocks blocks workers w =
      blocks.take (workerRange blocks.length workers (w + 1)).1 := by
  have le : (workerRange blocks.length workers w).1 ≤ (workerRange blocks.length workers w).2 :=
    min_le_min_right _ (Nat.mul_le_mul_right _ (Nat.le_succ w))
  have parts := List.take_append_drop (workerRange blocks.length workers w).1
    (blocks.take (workerRange blocks.length workers w).2)
  rwa [List.take_take, min_eq_left le] at parts

/-- The records of the first `n` workers, worker by worker, are those of the batch up to the next worker's range. -/
theorem flatMap_workers_batchRecords (bits : DigestBits) (pad : PadMode) (workers : Int) (blocks : List Block) (n : Nat) :
    ((List.range n).flatMap fun w =>
      batchRecords bits pad (workerRange blocks.length workers w).1 (workerBlocks blocks workers w)) =
      batchRecords bits pad 0 (blocks.take (workerRange blocks.length workers n).1) := by
  induction n with
  | zero => simp [workerRange, batchRecords]
  | succ n ih =>
    have before : (blocks.take (workerRange blocks.length workers n).1).length = (workerRange blocks.length workers n).1 :=
      List.length_take_of_le (min_le_right _ _)
    rw [List.range_succ, List.flatMap_append, ih, ← take_append_workerBlocks, batchRecords_append, before, Nat.zero_add,
      List.flatMap_singleton]

/-- Settles O36: each worker owes its batch, and the workers' ranges, one after the other, are the whole batch. -/
theorem parallelEqualsBatch : Obligations.ParallelEqualsBatch := by
  intro bits pad workers blocks
  have all : (workerRange blocks.length workers (effectiveWorkers workers)).1 = blocks.length :=
    min_eq_right (le_effectiveWorkers_mul_chunkSize _ _)
  simp only [hashPar, List.flatMap_map, hashBatch_mod, batchOwesEachDigest bits pad]
  rw [flatMap_workers_batchRecords, all, List.take_length]

end Sys2Proof.Machine

/-! # The fold and the run of a whole job

The XOR-fold as a function of the block (spec/40_xor_fold.md rules R65 to R68), and one job run through, from the command
accepted to the record queued (rules R70, R91, R97, R98). -/

namespace Sys2Proof.Machine

variable {s : State}

/-! ### XOR over an index range and over a list -/

theorem xorOver_succ (n : Nat) (f : Nat → Byte) : xorOver (n + 1) f = xorOver n f ^^^ f n := by
  simp [xorOver, List.range_succ]

theorem xorOver_congr {n : Nat} {f g : Nat → Byte} (same : ∀ l < n, f l = g l) : xorOver n f = xorOver n g := by
  induction n with
  | zero => rfl
  | succ n ih => rw [xorOver_succ, xorOver_succ, ih fun l h => same l (by omega), same n (by omega)]

theorem xorOver_xor (n : Nat) (f g : Nat → Byte) :
    xorOver n (fun l => f l ^^^ g l) = xorOver n f ^^^ xorOver n g := by
  induction n with
  | zero => simp [xorOver]
  | succ n ih =>
    rw [xorOver_succ, xorOver_succ, xorOver_succ, ih]
    ac_rfl

@[simp] theorem xorOver_zero (n : Nat) : xorOver n (fun _ => 0#8) = 0#8 := by
  induction n with
  | zero => rfl
  | succ n ih => simp [xorOver_succ, ih]

/-- Of terms that are zero but for one index, that one is left. -/
theorem xorOver_single {n l : Nat} (h : l < n) (m : Byte) : xorOver n (fun i => if i = l then m else 0#8) = m := by
  induction n with
  | zero => exact absurd h (Nat.not_lt_zero l)
  | succ n ih =>
    rw [xorOver_succ]
    obtain before | rfl := Nat.lt_succ_iff_lt_or_eq.mp h
    · simp [ih before, before.ne']
    · have zeros : xorOver l (fun i => if i = l then m else 0#8) = xorOver l (fun _ => 0#8) :=
        xorOver_congr fun i hi => if_neg hi.ne
      simp [zeros]

theorem xorOver_eq_foldl_map (n : Nat) (f : Nat → Byte) :
    xorOver n f = ((List.range n).map f).foldl (· ^^^ ·) 0#8 := List.foldl_map.symm

/-- A list in which every byte occurs an even number of times cancels: its first byte occurs again, and without the two the
list is shorter and still has even counts (rule R68). -/
theorem foldl_xor_of_even_count : ∀ xs : List Byte, (∀ v, xs.count v % 2 = 0) → xs.foldl (· ^^^ ·) 0#8 = 0#8
  | [], _ => rfl
  | v :: xs, even => by
    have again : v ∈ xs := by
      have := even v
      rw [List.count_cons_self] at this
      exact List.count_pos_iff.mp (by omega)
    have pair : (v :: xs).Perm (v :: v :: xs.erase v) := (List.perm_cons_erase again).cons v
    have shorter : (xs.erase v).length ≤ xs.length := List.length_erase_le
    have rest := foldl_xor_of_even_count (xs.erase v) fun w => by
      have := even w
      rw [pair.count_eq, List.count_cons, List.count_cons] at this
      omega
    rw [pair.foldl_eq]
    simpa using rest
termination_by xs => xs.length

/-! ### The fold of a block -/

theorem byteAt_foldBlock (block : Block) {k : Nat} (h : k < 64) :
    byteAt (foldBlock block) k = xorOver 64 fun l => byteAt block (64 * l + k) := byteAt_ofFn _ h

theorem foldBlock_xorBytes (x y : Block) : foldBlock (xorBytes x y) = xorBytes (foldBlock x) (foldBlock y) :=
  bytes_ext fun k hk => by
    simp only [byteAt_xorBytes, byteAt_foldBlock _ hk, xorOver_xor]

theorem foldBlock_zeroBytes : foldBlock (zeroBytes 4096) = zeroBytes 64 :=
  bytes_ext fun k hk => by simp [byteAt_foldBlock _ hk]

theorem byteAt_flipByte (x : Block) (i : Nat) (m : Byte) {q : Nat} (h : q < 4096) :
    byteAt (flipByte x i m) q = byteAt x q ^^^ if q = i then m else 0#8 := by
  rw [flipByte, byteAt_ofFn _ h]
  split <;> simp

/-- Flipping bits of the byte at position `k` of a lane flips those bits of byte `k` of the fold (rule R67 (a)). -/
theorem byteAt_foldBlock_flipByte (x : Block) {l k i : Nat} (m : Byte) (hl : l < 64) (hk : k < 64) (hi : i < 64) :
    byteAt (foldBlock (flipByte x (64 * l + k) m)) i = byteAt (foldBlock x) i ^^^ if i = k then m else 0#8 := by
  have bytes : ∀ n < 64, byteAt (flipByte x (64 * l + k) m) (64 * n + i) =
      byteAt x (64 * n + i) ^^^ if 64 * n + i = 64 * l + k then m else 0#8 :=
    fun n hn => byteAt_flipByte x _ m (by omega)
  rw [byteAt_foldBlock _ hi, byteAt_foldBlock _ hi, xorOver_congr bytes, xorOver_xor]
  congr 1
  by_cases same : i = k
  · subst same
    have lane : ∀ n, 64 * n + i = 64 * l + i ↔ n = l := by omega
    simp only [lane, if_true, xorOver_single hl]
  · have other : ∀ n, ¬ 64 * n + i = 64 * l + k := by omega
    simp only [other, same, if_false, xorOver_zero]

/-- The same bits flipped at the same position of two lanes cancel (rule R67 (b)). -/
theorem foldBlock_flipByte_flipByte (x : Block) {l l' k : Nat} (m : Byte) (hl : l < 64) (hl' : l' < 64) (hk : k < 64) :
    foldBlock (flipByte (flipByte x (64 * l + k) m) (64 * l' + k) m) = foldBlock x :=
  bytes_ext fun i hi => by
    rw [byteAt_foldBlock_flipByte _ m hl' hk hi, byteAt_foldBlock_flipByte _ m hl hk hi, BitVec.xor_assoc,
      BitVec.xor_self, BitVec.xor_zero]

/-- Settles O44: the lanes may be XORed in any order, since XOR commutes, and in rising order they give the fold. -/
theorem runningFoldEqualsFold : Obligations.RunningFoldEqualsFold := by
  intro block order perm
  rw [← foldl_laneOf_eq_foldBlock]
  refine perm.foldl_eq' (fun l _ l' _ acc => ?_) _
  rw [xorBytes_assoc, xorBytes_assoc, xorBytes_comm (laneOf block l)]

theorem map_getD_range {n : Nat} {xs : List Nat} (length : xs.length = n) :
    (List.range n).map (fun i => xs.getD i 0) = xs := by
  subst length
  refine List.ext_getElem (by simp) fun i _ h => ?_
  rw [List.getElem_map, List.getElem_range, List.getD_eq_getElem _ _ h]

/-- A permutation of the lanes is an order in which the running fold may take them (rule R67 (c)). -/
theorem foldBlock_of_lanes_perm {x y : Block} {order : List Nat} (perm : order.Perm (List.range 64))
    (lanes : ∀ n k, n < 64 → k < 64 → byteAt y (64 * n + k) = byteAt x (64 * order.getD n 0 + k)) :
    foldBlock y = foldBlock x := by
  have length : order.length = 64 := by simpa using perm.length_eq
  have lane : ∀ n < 64, laneOf y n = laneOf x (order.getD n 0) := fun n hn =>
    bytes_ext fun k hk => by rw [byteAt_laneOf _ _ hk, byteAt_laneOf _ _ hk, lanes n k hn hk]
  calc foldBlock y
    _ = ((List.range 64).map (laneOf y)).foldl xorBytes (zeroBytes 64) := by
      rw [List.foldl_map, foldl_laneOf_eq_foldBlock]
    _ = ((List.range 64).map fun n => laneOf x (order.getD n 0)).foldl xorBytes (zeroBytes 64) := by
      rw [List.map_congr_left fun n hn => lane n (List.mem_range.mp hn)]
    _ = order.foldl (fun acc l => xorBytes acc (laneOf x l)) (zeroBytes 64) := by
      rw [← List.foldl_map (f := laneOf x) (g := xorBytes), ← Function.comp_def (laneOf x), ← List.map_map,
        map_getD_range length]
    _ = foldBlock x := runningFoldEqualsFold x order perm

/-- Equal intermediates have equal digests: the digest reads the block through its fold alone (rule R95). -/
theorem digest256_congr {x y : Block} (same : foldBlock x = foldBlock y) (pad : PadMode) :
    digest256 pad x = digest256 pad y := by
  rw [digest256, digest256, same]

/-- Settles O45: linearity and zero position by position, then the three consequences. -/
theorem foldIsLinear : Obligations.FoldIsLinear := by
  refine ⟨foldBlock_xorBytes, foldBlock_zeroBytes, fun x l k m hl hk i hi => ?_, fun x l l' k m hl hl' hk => ?_,
    fun x y order perm lanes => foldBlock_of_lanes_perm perm lanes⟩
  · rw [byteAt_foldBlock_flipByte x m hl hk hi]
    split <;> simp
  · have same := foldBlock_flipByte_flipByte x m hl hl' hk
    exact ⟨same, digest256_congr same⟩

/-! ### Cancellation -/

/-- A lane position whose bytes have even counts folds to zero (rule R68). -/
theorem byteAt_foldBlock_of_even_count {block : Block} {k : Nat} (hk : k < 64)
    (even : ∀ v : Byte, ((List.range 64).countP fun l => byteAt block (64 * l + k) == v) % 2 = 0) :
    byteAt (foldBlock block) k = 0#8 := by
  rw [byteAt_foldBlock _ hk, xorOver_eq_foldl_map]
  refine foldl_xor_of_even_count _ fun v => ?_
  rw [List.count, List.countP_map]
  exact even v

/-- The two halves of each generator's block are equal (rule R61). -/
theorem byteAt_generator_block_half (g : Generator) {i : Nat} (h : i < 2048) :
    byteAt g.block (2048 + i) = byteAt g.block i := by
  rw [byteAt_of_lt _ (by omega), byteAt_of_lt _ (by omega)]
  cases g with
  | zero | ones => simp [Generator.block]
  | pattern =>
    have period : (2048 + i) % 256 = i % 256 := by omega
    simp [Generator.block, period]

/-- In a generator's block lanes `l` and `l + 32` are equal, so every byte value occurs an even number of times. -/
theorem generator_block_even_count (g : Generator) {k : Nat} (hk : k < 64) (v : Byte) :
    ((List.range 64).countP fun l => byteAt g.block (64 * l + k) == v) % 2 = 0 := by
  have upper : ((List.range 32).map (32 + ·)).countP (fun l => byteAt g.block (64 * l + k) == v) =
      (List.range 32).countP fun l => byteAt g.block (64 * l + k) == v := by
    rw [List.countP_map]
    refine List.countP_congr fun l hl => ?_
    have hl : l < 32 := List.mem_range.mp hl
    rw [Function.comp_apply, show 64 * (32 + l) + k = 2048 + (64 * l + k) by omega,
      byteAt_generator_block_half g (by omega)]
  have halves : List.range 64 = List.range 32 ++ (List.range 32).map (32 + ·) := List.range_add (n := 32) (m := 32)
  rw [halves, List.countP_append, upper]
  omega

theorem foldBlock_generator (g : Generator) : foldBlock g.block = zeroBytes 64 :=
  bytes_ext fun k hk => by
    rw [byteAt_foldBlock_of_even_count hk (generator_block_even_count g hk), byteAt_zeroBytes]

/-- Settles O46: bytes with even counts cancel, and the lanes of the three generators pair up. -/
theorem foldCancelsEvenOccurrences : Obligations.FoldCancelsEvenOccurrences :=
  ⟨fun _ _ hk even => byteAt_foldBlock_of_even_count hk even, foldBlock_generator,
    fun pad g h => digest256_congr ((foldBlock_generator g).trans (foldBlock_generator h).symm) pad⟩

/-! ### The steps of a job -/

/-- A step of the engine that heads the agenda is taken with that head gone. -/
theorem step_eq_engineStep_popped {e : EngineStep} {ms : List Move} (agenda : s.agenda = .engine e :: ms) :
    step s = engineStep e (popped s) := by
  rw [step_of_agenda agenda, popped, agenda, List.drop_one, List.tail_cons]

theorem engineStep_acceptBeat_of_framed {b : Beat} {rest : List Beat} {op : Op} (ready : s.inReady = true)
    (offered : s.beats = b :: rest) (opcode : Op.ofCode s.fSlot.op = some op)
    (last : framed op s.fSlot.cnt.toNat b.last = true) :
    engineStep .acceptBeat s = .next (s.takeBeat.foldBeat b.data) := by
  have low := (inReady_iff.mp ready).1
  simp [engineStep, low, offeredBeat, offered, acceptBeat, ready, opcode, last]

theorem engineStep_advance_of_canAdvance (can : s.canAdvance = true) :
    engineStep .advance s = .next s.loadS.freeF := by
  have low := (canAdvance_iff.mp can).1
  simp [engineStep, low, advance, can]

/-- What gathering says of the next beat of a job that still lacks one: it is offered and properly framed. -/
theorem framed_of_gather {op : Op} {n : Nat} {acc : Bytes 64} {beats : List Beat} {blk : Bytes 64} {rest : List Beat}
    (missing : n < beatsOf op) (gathers : gather op n acc beats = some (blk, rest)) :
    ∃ b bs, beats = b :: bs ∧ framed op n b.last = true ∧
      gather op (n + 1) (xorBytes acc b.data) bs = some (blk, rest) := by
  cases beats with
  | nil => simp [gather, missing.ne] at gathers
  | cons b bs =>
    cases last : framed op n b.last with
    | false => simp [gather_misframed missing last] at gathers
    | true => exact ⟨b, bs, rfl, last, gather_framed missing last acc bs ▸ gathers⟩

/-- The state once the job in the F slot has all its beats: `blk` is their fold, `rest` and `ms` are what is left of the
data-in stream and of the agenda. -/
def beatsTaken (s : State) (op : Op) (blk : Bytes 64) (rest : List Beat) (ms : List Move) : State :=
  { s with
    fSlot := { s.fSlot with cnt := BitVec.ofNat 7 (beatsOf op) }
    acc := blk
    beats := rest
    agenda := ms }

/-- The beats a job still lacks, taken one after the other, leave in `ACC` what `gather` gives (rules R66, R100). -/
theorem run_acceptBeats {op : Op} {blk : Bytes 64} {rest : List Beat} {ms : List Move} {n : Nat}
    (low : s.rst = false) (noFault : s.fault = false) (busy : s.fSlot.busy = true)
    (opcode : Op.ofCode s.fSlot.op = some op) (count : s.fSlot.cnt.toNat + n = beatsOf op)
    (gathers : gather op s.fSlot.cnt.toNat s.acc s.beats = some (blk, rest))
    (agenda : s.agenda = List.replicate n (.engine .acceptBeat) ++ ms) :
    run n s = .next (beatsTaken s op blk rest ms) := by
  induction n generalizing s with
  | zero =>
    have complete : s.fSlot.cnt.toNat = beatsOf op := count
    rw [complete, gather_complete] at gathers
    obtain ⟨rfl, rfl⟩ : s.acc = blk ∧ s.beats = rest := by simpa using gathers
    obtain rfl : s.agenda = ms := agenda
    simp [beatsTaken, ← complete]
  | succ n ih =>
    have missing : s.fSlot.cnt.toNat < beatsOf op := by omega
    obtain ⟨b, bs, offered, last, gathers⟩ := framed_of_gather missing gathers
    have ready : (popped s).inReady = true := inReady_iff.mpr ⟨low, noFault, busy, op, opcode, missing⟩
    have taken : step s = .next ((popped s).takeBeat.foldBeat b.data) :=
      (step_eq_engineStep_popped agenda).trans (engineStep_acceptBeat_of_framed ready offered opcode last)
    have counted : ((popped s).takeBeat.foldBeat b.data).fSlot.cnt.toNat = s.fSlot.cnt.toNat + 1 :=
      foldBeat_cnt (s := (popped s).takeBeat) missing b.data
    have left : ((popped s).takeBeat.foldBeat b.data).beats = bs := by simp [popped, offered]
    rw [run_succ taken]
    exact ih low noFault busy opcode (by omega) (by rw [counted, left]; exact gathers) (by simp [popped, agenda])

/-! ### Whole jobs -/

/-- A job that has all its beats goes to the SM3 stage and its record is queued, in two moves (rules R101, R102). -/
theorem run_advance_retire {op : Op} {ms : List Move} (low : s.rst = false) (busy : s.fSlot.busy = true)
    (opcode : Op.ofCode s.fSlot.op = some op) (complete : s.fSlot.cnt.toNat = beatsOf op) (free : s.sSlot.busy = false)
    (room : s.oq.length < s.cfg.outDepth) (agenda : s.agenda = .engine .advance :: .engine .retire :: ms) :
    run 2 s = .next (retired (popped (popped s).loadS.freeF) op) := by
  have advances : step s = .next (popped s).loadS.freeF :=
    (step_eq_engineStep_popped agenda).trans (engineStep_advance_of_canAdvance
      (canAdvance_iff.mpr ⟨low, busy, ⟨op, opcode, complete⟩, free⟩))
  have agendaLeft : (popped s).loadS.freeF.agenda = .engine .retire :: ms := by simp [popped, agenda]
  have retires : step (popped s).loadS.freeF = .next (retired (popped (popped s).loadS.freeF) op) :=
    (step_eq_engineStep_popped agendaLeft).trans
      (engineStep_retire_of_canRetire (canRetire_iff.mpr ⟨low, rfl, room⟩) opcode)
  rw [run_succ advances, run_succ retires, run_zero]

/-- The state after the whole job of command `i`: its word, its beats and its moves are used up, `blk` is the fold of its
beats, both slots are free again and its record is queued. -/
def jobDone (s : State) (i : Instr) (blk : Bytes 64) (cs : List Word) (bs : List Beat) (ms : List Move) : State :=
  { s with
    cmd := cs, beats := bs, agenda := ms, acc := blk
    fSlot := { busy := false, op := i.op.code, tag := i.tag, cmd := encode i, cnt := BitVec.ofNat 7 (beatsOf i.op) }
    sSlot := { busy := false, op := i.op.code, tag := i.tag, blk := blk }
    sm3 := s.sm3.runJob s.cfg.padMode i.op blk
    oq := s.oq ++ [recordOf s.cfg.padMode i.op i.tag blk] }

/-- A command run through on an idle engine, whichever it is: accepted, its beats taken, handed over, its record queued. -/
theorem exec_run_job {i : Instr} {blk : Bytes 64} {cs : List Word} {bs : List Beat} {ms : List Move}
    (low : s.rst = false) (noFault : s.fault = false) (freeF : s.fSlot.busy = false) (freeS : s.sSlot.busy = false)
    (room : s.oq.length < s.cfg.outDepth) (offered : s.cmd = encode i :: cs)
    (gathers : gather i.op 0 (zeroBytes 64) s.beats = some (blk, bs))
    (agenda : s.agenda = jobMoves (beatsOf i.op) ++ ms) :
    ∃ t, exec i s = .next t ∧ run (beatsOf i.op + 2) t = .next (jobDone s i blk cs bs ms) := by
  refine ⟨s.takeCmd.startJob i.op i.tag, ?_, ?_⟩
  · rw [exec_eq_acceptJob, acceptJob_of_ready (cmdReady_iff.mpr ⟨low, noFault, freeF⟩)]
  · have complete : (BitVec.ofNat 7 (beatsOf i.op)).toNat = beatsOf i.op := by cases i <;> rfl
    have taken := run_acceptBeats (s := s.takeCmd.startJob i.op i.tag) (ms := .engine .advance :: .engine .retire :: ms)
      low noFault rfl (Op.ofCode_code i.op) (Nat.zero_add _) gathers (by simpa [jobMoves] using agenda)
    have queued := run_advance_retire (s := beatsTaken (s.takeCmd.startJob i.op i.tag) i.op blk bs _) (ms := ms) low rfl
      (Op.ofCode_code i.op) complete freeS room rfl
    have left : s.cmd.drop 1 = cs := by rw [offered, List.drop_one, List.tail_cons]
    rw [run_add taken, queued, jobDone, ← left]
    rfl

/-- Settles O42: a whole job whose beats are the block's, so what they gather is the block's fold. -/
theorem foldGivesTheIntermediate : Obligations.FoldGivesTheIntermediate := by
  intro s tag block cs bs ms low noFault freeF freeS room offered beats agenda
  have gathers : gather .fold 0 (zeroBytes 64) s.beats = some (foldBlock block, bs) :=
    beats ▸ gather_blockBeats rfl block bs
  obtain ⟨t, accepted, queued⟩ := exec_run_job (i := .fold tag) low noFault freeF freeS room offered gathers agenda
  exact ⟨t, _, accepted, queued⟩

end Sys2Proof.Machine

/-! # The SM3 core

The rules of spec/41_sm3_core.md: rotation and the permutations, the expanded message, the round-per-step realization of the
compression, serialization, the known answer, and the command `SM3CF` run through. -/

namespace Sys2Proof.Machine

/-! ### Rotation -/

/-- The engine's rotation is the library's (rule R89 (b)). -/
theorem rotl32_eq_rotateLeft (x : Word) (n : Nat) : rotl32 x n = x.rotateLeft n := by
  rw [rotl32, BitVec.rotateLeft_def]
  split
  · next whole => simp [whole, BitVec.ushiftRight_eq_zero]
  · rfl

/-- Counted from the most significant end, bit `i` of a rotated word is the bit `n` places on, around the word. -/
theorem getMsbD_rotl32 (x : Word) (n : Nat) {i : Nat} (h : i < 32) :
    (rotl32 x n).getMsbD i = x.getMsbD ((n + i) % 32) := by
  rw [rotl32_eq_rotateLeft, BitVec.getMsbD_rotateLeft, decide_eq_true h, Bool.true_and]

/-- Bit `i` goes to bit `(i + n) mod 32` (rule R89 (b)). -/
theorem getLsbD_rotl32 (x : Word) (n : Nat) {i : Nat} (h : i < 32) :
    (rotl32 x n).getLsbD ((i + n) % 32) = x.getLsbD i := by
  have target : (i + n) % 32 < 32 := Nat.mod_lt _ (by decide)
  have source : (n + (31 - (i + n) % 32)) % 32 = 31 - i := by omega
  rw [BitVec.getLsbD_eq_getMsbD, BitVec.getLsbD_eq_getMsbD, getMsbD_rotl32 x n (by omega)]
  simp [h, target, source]

theorem rotl32_rotl32 (x : Word) (n m : Nat) : rotl32 (rotl32 x n) m = rotl32 x (n + m) := by
  refine BitVec.eq_of_getMsbD_eq fun i hi => ?_
  have places : (n + (m + i) % 32) % 32 = (n + m + i) % 32 := by omega
  rw [getMsbD_rotl32 _ _ hi, getMsbD_rotl32 _ _ (Nat.mod_lt _ (by decide)), getMsbD_rotl32 _ _ hi, places]

theorem rotl32_xor (x y : Word) (n : Nat) : rotl32 (x ^^^ y) n = rotl32 x n ^^^ rotl32 y n := by
  refine BitVec.eq_of_getMsbD_eq fun i hi => ?_
  simp [getMsbD_rotl32 _ _ hi]

/-- Settles O52: the count enters through its remainder, and the rest is where each bit goes. -/
theorem rotationCountsAreModulo32 : Obligations.RotationCountsAreModulo32 := by
  intro x n m
  refine ⟨rfl, rfl, ?_, rotl32_rotl32 x n m, fun i hi => getLsbD_rotl32 x n hi⟩
  rw [rotl32, rotl32, Nat.add_mod_right]

/-! ### The permutations -/

theorem p0_xor (x y : Word) : p0 (x ^^^ y) = p0 x ^^^ p0 y := by
  simp only [p0, rotl32_xor]
  ac_rfl

theorem p1_xor (x y : Word) : p1 (x ^^^ y) = p1 x ^^^ p1 y := by
  simp only [p1, rotl32_xor]
  ac_rfl

/-- Settles O53: both are XORs of rotations, and a rotation is linear. -/
theorem permutationsAreLinear : Obligations.PermutationsAreLinear :=
  ⟨fun x y => ⟨p0_xor x y, p1_xor x y⟩, by decide, by decide, by decide, by decide⟩

/-! ### Serialization -/

/-- Byte `m` of a serialized word is `w[31-8m : 24-8m]`. -/
theorem byteAt_ser32 (w : Word) {m : Nat} (h : m < 4) : byteAt (ser32 w) m = w.extractLsb' (24 - 8 * m) 8 := by
  match m, h with
  | 0, _ | 1, _ | 2, _ | 3, _ => rfl

theorem byteAt_ser256 (v : Words 8) {i m : Nat} (hi : i < 8) (hm : m < 4) :
    byteAt (ser256 v) (4 * i + m) = (wordAt v i).extractLsb' (24 - 8 * m) 8 := by
  have word : (4 * i + m) / 4 = i := by omega
  have byte : (4 * i + m) % 4 = m := by omega
  rw [ser256, byteAt_ofFn _ (by omega : 4 * i + m < 32), word, byte, byteAt_ser32 _ hm]

/-- The four bytes of a word, the most significant first, are the word. -/
theorem bytes_append_eq (w : Word) :
    w.extractLsb' 24 8 ++ w.extractLsb' 16 8 ++ w.extractLsb' 8 8 ++ w.extractLsb' 0 8 = w := by
  have joins {high low len len' : Nat} (adjacent : high = low + len) :
      w.extractLsb' high len' ++ w.extractLsb' low len = w.extractLsb' low (len' + len) :=
    BitVec.extractLsb'_append_extractLsb'_eq_extractLsb' adjacent
  rw [joins (rfl : 24 = 16 + 8), joins (rfl : 16 = 8 + 8), joins (rfl : 8 = 0 + 8)]
  exact BitVec.extractLsb'_eq_self

theorem be32_ser256 (v : Words 8) {i : Nat} (hi : i < 8) : be32 (ser256 v) i = wordAt v i := by
  have first : byteAt (ser256 v) (4 * i) = (wordAt v i).extractLsb' 24 8 := byteAt_ser256 v (m := 0) hi (by decide)
  rw [be32, first, byteAt_ser256 v hi (by decide), byteAt_ser256 v hi (by decide), byteAt_ser256 v hi (by decide)]
  exact bytes_append_eq _

/-- Settles O51: each byte of the string is one of its word's four, and the four together are the word. -/
theorem serializationIsBigEndian : Obligations.SerializationIsBigEndian :=
  fun v => ⟨fun _ _ hi hm => byteAt_ser256 v hi hm, fun _ hi => be32_ser256 v hi⟩

/-! ### The expanded message -/

theorem wordAt_ofFn {n i : Nat} (f : Fin n → Word) (h : i < n) : wordAt (Vector.ofFn f) i = f ⟨i, h⟩ := by
  simp [wordAt, h]

/-- `W[j]` by the recurrence of rule R79, from the words before it. -/
def expansionWord (w : Words 68) (j : Nat) : Word :=
  p1 (wordAt w (j - 16) ^^^ wordAt w (j - 9) ^^^ rotl32 (wordAt w (j - 3)) 15)
    ^^^ rotl32 (wordAt w (j - 13)) 7 ^^^ wordAt w (j - 6)

theorem expandAt_eq (w : Words 68) (j : Nat) : expandAt w j = w.setIfInBounds j (expansionWord w j) := rfl

theorem wordAt_expandAt_same (w : Words 68) {j : Nat} (h : j < 68) : wordAt (expandAt w j) j = expansionWord w j := by
  rw [expandAt_eq, wordAt_of_lt _ h, Vector.getElem_setIfInBounds h, if_pos rfl]

theorem wordAt_expandAt_other (w : Words 68) {i j : Nat} (h : i ≠ j) : wordAt (expandAt w j) i = wordAt w i := by
  by_cases inside : i < 68
  · rw [expandAt_eq, wordAt_of_lt _ inside, wordAt_of_lt _ inside, Vector.getElem_setIfInBounds inside, if_neg h.symm]
  · simp [wordAt, inside]

/-- The expansion from `j` on writes no word below `j`. -/
theorem wordAt_foldl_expandAt (w : Words 68) {i j : Nat} (n : Nat) (h : i < j) :
    wordAt ((List.range' j n).foldl expandAt w) i = wordAt w i := by
  induction n generalizing w j with
  | zero => rfl
  | succ n ih =>
    rw [List.range'_succ, List.foldl_cons, ih _ (by omega), wordAt_expandAt_other _ h.ne]

/-- The recurrence at `j` reads the words below `j` alone. -/
theorem expansionWord_congr {w w' : Words 68} {j : Nat} (low : 16 ≤ j)
    (same : ∀ i < j, wordAt w i = wordAt w' i) : expansionWord w j = expansionWord w' j := by
  simp only [expansionWord, same _ (show j - 16 < j by omega), same _ (show j - 9 < j by omega),
    same _ (show j - 3 < j by omega), same _ (show j - 13 < j by omega), same _ (show j - 6 < j by omega)]

theorem wordAt_expand_load (b : Bytes 64) {i : Nat} (h : i < 16) : wordAt (expand b) i = be32 b i := by
  rw [expand, wordAt_foldl_expandAt _ _ h, loadWords, wordAt_ofFn _ (by omega : i < 68), if_pos h]

/-- Once `W[j]` is written neither it nor a word below it changes, so the recurrence holds of the finished file. -/
theorem wordAt_foldl_expandAt_recurrence (w : Words 68) {start n j : Nat} (low : 16 ≤ j) (high : j < 68)
    (after : start ≤ j) (before : j < start + n) :
    wordAt ((List.range' start n).foldl expandAt w) j =
      expansionWord ((List.range' start n).foldl expandAt w) j := by
  induction n generalizing w start with
  | zero => omega
  | succ n ih =>
    rw [List.range'_succ, List.foldl_cons]
    obtain rfl | later := Nat.eq_or_lt_of_le after
    · have below : ∀ i < start, wordAt ((List.range' (start + 1) n).foldl expandAt (expandAt w start)) i = wordAt w i :=
        fun i hi => by rw [wordAt_foldl_expandAt _ _ (by omega), wordAt_expandAt_other _ hi.ne]
      rw [wordAt_foldl_expandAt _ _ (by omega), wordAt_expandAt_same _ high, expansionWord_congr low below]
    · exact ih _ later (by omega)

theorem wordAt_expand_recurrence (b : Bytes 64) {j : Nat} (low : 16 ≤ j) (high : j < 68) :
    wordAt (expand b) j = expansionWord (expand b) j :=
  wordAt_foldl_expandAt_recurrence _ low high low (by omega)

/-- Settles O48: the load below 16, the recurrence from 16 on. -/
theorem expansionFollowsTheRecurrence : Obligations.ExpansionFollowsTheRecurrence :=
  fun b => ⟨fun _ h => wordAt_expand_load b h, fun _ low high => wordAt_expand_recurrence b low (by omega)⟩

/-! ### The round-per-step realization -/

theorem windowRun_eq_iterate (k : Nat) (s : Window) : windowRun k s = windowRound^[k] s := by
  induction k generalizing s with
  | zero => rfl
  | succ k ih => exact ih (windowRound s)

/-- The realization after `k` rounds: the registers after `k` rounds of rule R84, and in the window `W[k]` to `W[k+15]`
as far as the expanded message goes (the last rounds push in words that no round reads). -/
structure AfterRounds (v : Words 8) (b : Bytes 64) (k : Nat) (s : Window) : Prop where
  chain : s.v = v
  regs : s.regs = (List.range k).foldl (roundAt (expand b)) (startRegs v)
  window : ∀ i (h : i < 16), k + i < 68 → s.w[i] = wordAt (expand b) (k + i)
  count : s.j = k

theorem windowStart_afterRounds (v : Words 8) (b : Bytes 64) : AfterRounds v b 0 (windowStart v b) where
  chain := rfl
  regs := rfl
  window i h _ := by simp [windowStart, wordAt_expand_load b h]
  count := rfl

/-- The word a round pushes into the window is the next one of the expanded message. -/
theorem windowNew_eq {v : Words 8} {b : Bytes 64} {k : Nat} {s : Window} (h : AfterRounds v b k s)
    (inside : k + 16 < 68) : windowNew s.w = wordAt (expand b) (k + 16) := by
  have reads : ∀ i (hi : i < 16), s.w[i] = wordAt (expand b) (k + i) := fun i hi => h.window i hi (by omega)
  rw [wordAt_expand_recurrence b (Nat.le_add_left ..) inside]
  simp only [windowNew, reads]
  rfl

theorem windowRound_afterRounds {v : Words 8} {b : Bytes 64} {k : Nat} {s : Window} (h : AfterRounds v b k s)
    (more : k < 64) : AfterRounds v b (k + 1) (windowRound s) := by
  rw [windowRound, h.count, if_pos more]
  refine ⟨h.chain, ?_, fun i hi inside => ?_, rfl⟩
  · have first : s.w[0] = wordAt (expand b) k := h.window 0 (by omega) (by omega)
    rw [List.range_succ, List.foldl_append, ← h.regs, first, h.window 4 (by omega) (by omega)]
    rfl
  · rw [Vector.getElem_ofFn]
    by_cases shifted : i + 1 < 16
    · rw [dif_pos shifted, h.window (i + 1) shifted (by omega), Nat.add_right_comm, Nat.add_assoc]
    · obtain rfl : i = 15 := by omega
      rw [dif_neg shifted]
      exact windowNew_eq h (by omega)

theorem windowRun_afterRounds (v : Words 8) (b : Bytes 64) {k : Nat} (h : k ≤ 64) :
    AfterRounds v b k (windowRun k (windowStart v b)) := by
  rw [windowRun_eq_iterate]
  induction k with
  | zero => exact windowStart_afterRounds v b
  | succ k ih =>
    rw [Function.iterate_succ_apply']
    exact windowRound_afterRounds (ih (by omega)) h

/-- Settles O49: the counter reaches 64 with the last round, and the registers are then those of rule R84. -/
theorem windowRealizationEqualsCf : Obligations.WindowRealizationEqualsCf := by
  intro v b
  refine ⟨?_, fun k more => ?_⟩
  · obtain ⟨chain, regs, -, count⟩ := windowRun_afterRounds v b (k := 64) (by omega)
    rw [windowFinish, if_pos count, chain, regs]
    rfl
  · have running := windowRun_afterRounds v b more.le
    rw [windowFinish, running.count, if_neg more.ne]

/-! ### The known answer -/

/-- The padded message block for "abc" (rule R88). -/
def abcBlock : Bytes 64 := Vector.ofFn fun i =>
  if i.val = 0 then 0x61#8 else if i.val = 1 then 0x62#8 else if i.val = 2 then 0x63#8
  else if i.val = 3 then 0x80#8 else if i.val = 63 then 0x18#8 else 0x00#8

theorem cf_abcBlock : cf iv abcBlock =
    #v[0x66c7f0f4, 0x62eeedd9, 0xd1f2d46b, 0xdc10e4e2, 0x4167c487, 0x5cf2f7a2, 0x297da02b, 0x8f4ba8e0] := by
  decide +kernel

/-- Settles O47: the eight words of the compression, serialized. -/
theorem knownAnswer : Obligations.KnownAnswer := by
  unfold Obligations.KnownAnswer
  rw [← abcBlock, cf_abcBlock]
  rfl

/-! ### The command `SM3CF`, and that every step goes on -/

/-- An `SM3CF` job gathers its one beat. -/
theorem gather_messageBeat (d : Bytes 64) (rest : List Beat) :
    gather .sm3cf 0 (zeroBytes 64) (messageBeat d :: rest) = some (d, rest) := by
  rw [gather_framed (by decide) rfl, zero_xorBytes]
  exact gather_complete .sm3cf d rest

/-- Settles O43: a whole job of one beat, whose record is the compression of that beat. -/
theorem sm3cfGivesTheCompression : Obligations.Sm3cfGivesTheCompression := by
  intro s tag d cs bs ms low noFault freeF freeS room offered beats agenda
  have gathers : gather .sm3cf 0 (zeroBytes 64) s.beats = some (d, bs) := beats ▸ gather_messageBeat d bs
  obtain ⟨t, accepted, queued⟩ := exec_run_job (i := .sm3cf tag) low noFault freeF freeS room offered gathers agenda
  exact ⟨t, _, accepted, queued⟩

/-- The default move is a reset, a step of the engine or none, so it goes on where every step of the engine does. -/
theorem defaultMove_goes_on {s : State} (legalS : s.sSlot.busy = true → (Op.ofCode s.sSlot.op).isSome = true) :
    ∃ t, defaultMove s = .next t := by
  rw [defaultMove]
  split
  · exact ⟨_, rfl⟩
  · split
    · exact engineStep_goes_on legalS
    · exact ⟨_, rfl⟩

/-- Settles O26: the one stop is a busy S slot with an opcode that is not legal, which the invariant excludes. -/
theorem everyStepGoesOn : Obligations.EveryStepGoesOn := by
  intro s h
  rw [step, nextMove]
  split
  · exact defaultMove_goes_on h.sSlot
  · exact engineStep_goes_on h.sSlot
  · exact ⟨_, rfl⟩

end Sys2Proof.Machine

/-! # The steps, runs of the default order, and engines side by side

The rules of spec/42_digest_engine.md: the transfer of each command, what each step does where its guard holds and where it
does not (rules R99 to R106), the wait and the end of a run in the default order (rules R108, R134, R147), the digest
commands run through (rules R96 to R98), and the digests of a batch divided among engines (rules R110 to R113). -/

namespace Sys2Proof.Machine

variable {s t : State}

/-! ### The transfer of a command -/

theorem exec_of_ready (ready : s.cmdReady = true) (i : Instr) :
    exec i s = .next (s.takeCmd.startJob i.op i.tag) := by
  rw [exec_eq_acceptJob, acceptJob_of_ready ready]

theorem exec_of_not_ready (notReady : s.cmdReady = false) (i : Instr) : exec i s = .next s := by
  rw [exec_eq_acceptJob, acceptJob_of_not_ready notReady]

/-- A command starts its job or waits. -/
theorem exec_cases {i : Instr} (h : exec i s = .next t) : t = s.takeCmd.startJob i.op i.tag ∨ t = s := by
  cases ready : s.cmdReady with
  | true => rw [exec_of_ready ready] at h; cases h; exact .inl rfl
  | false => rw [exec_of_not_ready ready] at h; cases h; exact .inr rfl

/-- A fault, a busy F slot and a high `rst` each keep a command waiting. -/
theorem cmdReady_eq_false_iff : s.cmdReady = false ↔ s.rst = true ∨ s.fault = true ∨ s.fSlot.busy = true := by
  simp [State.cmdReady, or_iff_not_imp_left]

/-- Settles O6: the guard is `cmd_ready`, and the job started is the command's own. -/
theorem eachCommandStartsItsJob : Obligations.EachCommandStartsItsJob := by
  intro s tag low noFault free
  have ready : s.cmdReady = true := cmdReady_iff.mpr ⟨low, noFault, free⟩
  exact ⟨exec_of_ready ready (.hash256 tag), exec_of_ready ready (.hash128 tag), exec_of_ready ready (.fold tag),
    exec_of_ready ready (.sm3cf tag)⟩

/-- Settles O7: each of the three conditions holds `cmd_ready` low. -/
theorem commandWaitsWhileNotReady : Obligations.CommandWaitsWhileNotReady :=
  fun i _ waits => exec_of_not_ready (cmdReady_eq_false_iff.mpr waits) i

/-- Settles O8: the state after is that of the job started or the one before. -/
theorem commandsLeaveTheRestUnchanged : Obligations.CommandsLeaveTheRestUnchanged := by
  intro i s t h
  obtain rfl | rfl := exec_cases h
  · exact ⟨rfl, rfl, rfl, rfl, rfl, rfl, rfl, rfl, rfl, rfl, rfl, rfl, .inr rfl⟩
  · exact ⟨rfl, rfl, rfl, rfl, rfl, rfl, rfl, rfl, rfl, rfl, rfl, rfl, .inl rfl⟩

/-! ### What each step does where it is enabled -/

theorem engineStep_acceptCmd_of_ready {c : Word} {rest : List Word} {i : Instr} (ready : s.cmdReady = true)
    (offered : s.cmd = c :: rest) (reads : decode c = .command i) :
    engineStep .acceptCmd s = .next (s.takeCmd.startJob i.op i.tag) := by
  rw [engineStep_acceptCmd_of_command (cmdReady_iff.mp ready).1 offered reads, exec_of_ready ready]

theorem engineStep_acceptCmd_of_illegal {c : Word} {rest : List Word} (ready : s.cmdReady = true)
    (offered : s.cmd = c :: rest) (reads : decode c = .illegal) :
    engineStep .acceptCmd s = .next (s.takeCmd.raise .illcmd c) := by
  have low := (cmdReady_iff.mp ready).1
  simp [engineStep, low, acceptCmd, offered, reads, acceptIllegal, ready]

theorem engineStep_acceptBeat_of_misframed {b : Beat} {rest : List Beat} {op : Op} (ready : s.inReady = true)
    (offered : s.beats = b :: rest) (opcode : Op.ofCode s.fSlot.op = some op)
    (last : framed op s.fSlot.cnt.toNat b.last = false) : engineStep .acceptBeat s = .next (misframed s) := by
  have low := (inReady_iff.mp ready).1
  simp [engineStep, low, offeredBeat, offered, acceptBeat, ready, opcode, last, misframed]

theorem engineStep_deliver_of_head {r : Record} {rest : List Record} (low : s.rst = false) (head : s.oq = r :: rest)
    (hostReady : s.outReady = true) : engineStep .deliver s = .next (s.handRecord r) := by
  have valid : s.outValid = true := outValid_iff.mpr ⟨low, by simp [head]⟩
  simp [engineStep, low, deliver, head, valid, hostReady]

/-! ### What each step does where it is not enabled -/

theorem acceptCmd_of_not_enabled (off : enabled s .acceptCmd = false) : acceptCmd s = .next s := by
  cases offered : s.cmd with
  | nil => simp [acceptCmd, offered]
  | cons c rest =>
    have notReady : s.cmdReady = false := by simpa [enabled, State.cmdValid, offered] using off
    cases reads : decode c with
    | command i => simp [acceptCmd, offered, reads, exec_of_not_ready notReady]
    | illegal => simp [acceptCmd, offered, reads, acceptIllegal, notReady]

theorem offeredBeat_of_not_enabled (off : enabled s .acceptBeat = false) : offeredBeat s = .next s := by
  cases offered : s.beats with
  | nil => simp [offeredBeat, offered]
  | cons b rest =>
    have notReady : s.inReady = false := by simpa [enabled, State.inValid, offered] using off
    simp [offeredBeat, offered, acceptBeat, notReady]

theorem deliver_of_not_enabled (off : enabled s .deliver = false) : deliver s = .next s := by
  cases queue : s.oq with
  | nil => simp [deliver, queue]
  | cons r rest =>
    have closed : (s.outValid && s.outReady) = false := off
    simp only [deliver, queue, closed, Bool.false_eq_true, if_false]

/-- A step that is not enabled changes nothing (rule R134). -/
theorem engineStep_of_not_enabled {e : EngineStep} (low : s.rst = false) (off : enabled s e = false) :
    engineStep e s = .next s := by
  simp only [engineStep, low, Bool.false_eq_true, if_false]
  cases e with
  | acceptCmd => exact acceptCmd_of_not_enabled off
  | acceptBeat => exact offeredBeat_of_not_enabled off
  | advance => exact if_neg (by simpa [enabled] using off)
  | retire => exact if_neg (by simpa [enabled] using off)
  | deliver => exact deliver_of_not_enabled off

/-! ### The steps, each with its guard and its effects -/

/-- Settles O10: a legal word is the word of its opcode and its own tag, so its job is the one the rule writes out. -/
theorem acceptCmdStep : Obligations.AcceptCmdStep := by
  intro s c cs low offered
  have left : s.cmd.drop 1 = cs := by rw [offered, List.drop_one, List.tail_cons]
  refine ⟨fun noFault free isLegal => ?_, fun noFault free notLegal => ?_, fun closed => ?_⟩
  · obtain ⟨op, word⟩ := legal_iff_eq_commandWord.mp isLegal
    have opc : c.extractLsb' 0 8 = op.code := (eq_commandWord_iff.mp word).2
    have reads : decode c = .command (op.instr (FormatC.ofWord c).tag) :=
      (congrArg decode word).trans (decode_commandWord op _)
    rw [engineStep_acceptCmd_of_ready (cmdReady_iff.mpr ⟨low, noFault, free⟩) offered reads, Op.instr_op, Op.instr_tag,
      State.startJob, ← word, State.takeCmd, left, opc]
    rfl
  · rw [engineStep_acceptCmd_of_illegal (cmdReady_iff.mpr ⟨low, noFault, free⟩) offered (decode_of_not_legal notLegal),
      State.takeCmd, left]
    rfl
  · have notReady : s.cmdReady = false := cmdReady_eq_false_iff.mpr (.inr closed)
    exact engineStep_of_not_enabled low (by simp [enabled, notReady])

theorem framed_iff {op : Op} {n : Nat} {last : Bool} :
    framed op n last = true ↔ (last = true ↔ n = beatsOf op - 1) := by
  cases last <;> simp [framed]

/-- Settles O12: the flag is compared with the place of the beat, and a closed guard is `in_ready` low. -/
theorem acceptBeatStep : Obligations.AcceptBeatStep := by
  intro s b bs op low offered code
  have opcode : Op.ofCode s.fSlot.op = some op := by rw [code, Op.ofCode_code]
  have left : s.beats.drop 1 = bs := by rw [offered, List.drop_one, List.tail_cons]
  refine ⟨fun noFault busy missing last => ?_, fun noFault busy missing last => ?_, fun closed => ?_⟩
  · have ready : s.inReady = true := inReady_iff.mpr ⟨low, noFault, busy, op, opcode, missing⟩
    rw [engineStep_acceptBeat_of_framed ready offered opcode (framed_iff.mpr last), State.takeBeat, left]
    rfl
  · have ready : s.inReady = true := inReady_iff.mpr ⟨low, noFault, busy, op, opcode, missing⟩
    have wrong : framed op s.fSlot.cnt.toNat b.last = false := by rwa [← framed_iff, Bool.not_eq_true] at last
    rw [engineStep_acceptBeat_of_misframed ready offered opcode wrong, misframed, State.takeBeat, left]
    rfl
  · have notReady : s.inReady = false := by
      obtain fault | free | complete := closed
      · simp [State.inReady, fault]
      · simp [State.inReady, free]
      · simp [State.inReady, State.beatsMissing, State.fBeats, opcode, complete]
    exact engineStep_of_not_enabled low (by simp [enabled, notReady])

/-- Settles O14: the hand-over, and the guard's three conditions. -/
theorem advanceStep : Obligations.AdvanceStep := by
  intro s op low code
  have opcode : Op.ofCode s.fSlot.op = some op := by rw [code, Op.ofCode_code]
  refine ⟨fun busy complete free => ?_, fun closed => engineStep_of_not_enabled low ?_⟩
  · exact engineStep_advance_of_canAdvance (canAdvance_iff.mpr ⟨low, busy, ⟨op, opcode, complete⟩, free⟩)
  · obtain free | incomplete | busy := closed
    · simp [enabled, State.canAdvance, free]
    · simp [enabled, State.canAdvance, State.beatsComplete, State.fBeats, opcode, incomplete]
    · simp [enabled, State.canAdvance, busy]

/-- Settles O15: the state after the retire step, whose record is the opcode's. -/
theorem retireStep : Obligations.RetireStep := by
  intro s op low code
  refine ⟨fun busy room => ⟨s.sm3.runJob s.cfg.padMode op s.sSlot.blk, ?_⟩,
    fun closed => engineStep_of_not_enabled low ?_⟩
  · rw [engineStep_retire_of_canRetire (canRetire_iff.mpr ⟨low, busy, room⟩) (by rw [code, Op.ofCode_code])]
    cases op <;> rfl
  · obtain free | full := closed
    · simp [enabled, State.canRetire, free]
    · simp [enabled, State.canRetire, full]

/-- Settles O16: the head record handed over, or the transfer's guard closed. -/
theorem deliverStep : Obligations.DeliverStep := by
  intro s low
  refine ⟨fun r rs head hostReady => ?_, fun closed => engineStep_of_not_enabled low ?_⟩
  · rw [engineStep_deliver_of_head low head hostReady, State.handRecord, head]
    rfl
  · obtain empty | notReady := closed
    · simp [enabled, State.outValid, empty]
    · simp [enabled, notReady]

/-- A move of the host that heads the agenda is the next move. -/
theorem step_of_host_agenda {m : HostMove} {ms : List Move} (agenda : s.agenda = .host m :: ms) :
    step s = .next (hostMove m { s with agenda := ms }) := by
  simp [step, nextMove, agenda]

/-- Settles O19: the move that heads the agenda is made, whichever of the four it is. -/
theorem hostMovesOnlyItsPorts : Obligations.HostMovesOnlyItsPorts :=
  fun _ _ => ⟨fun _ => step_of_host_agenda, fun _ => step_of_host_agenda, fun _ => step_of_host_agenda,
    fun _ => step_of_host_agenda⟩

/-! ### The default order: a machine at rest -/

theorem firstEnabled_eq_none_iff : firstEnabled s = none ↔ ∀ e, enabled s e = false := by
  refine List.find?_eq_none.trans ⟨fun h e => ?_, fun h e _ => by simp [h e]⟩
  exact Bool.not_eq_true _ ▸ h e (by cases e <;> decide)

/-- With an empty agenda and no step enabled the machine stays as it is. -/
theorem step_of_no_firstEnabled (low : s.rst = false) (agenda : s.agenda = []) (rest : firstEnabled s = none) :
    step s = .next s := by
  simp [step, nextMove, defaultMove, low, agenda, rest]

theorem run_of_step_self (h : step s = .next s) (n : Nat) : run n s = .next s := by
  induction n with
  | zero => rfl
  | succ n ih => rw [run_succ h, ih]

/-- Settles O31: the job waiting for beats closes the command stream and the hand-over, and nothing older is inside, so no
step is enabled. -/
theorem tooFewBeatsIsAWait : Obligations.TooFewBeatsIsAWait := by
  intro s low agenda ⟨ready, noBeats⟩ freeS queue
  obtain ⟨-, noFault, busy, op, opcode, missing⟩ := inReady_iff.mp ready
  have notReady : s.cmdReady = false := cmdReady_eq_false_iff.mpr (.inr (.inr busy))
  have rest : firstEnabled s = none := firstEnabled_eq_none_iff.mpr fun e => by
    cases e with
    | acceptCmd => simp [enabled, notReady]
    | acceptBeat => simp [enabled, State.inValid, noBeats]
    | advance => simp [enabled, State.canAdvance, State.beatsComplete, State.fBeats, opcode, missing.ne]
    | retire => simp [enabled, State.canRetire, freeS]
    | deliver => simp [enabled, State.outValid, queue]
  refine ⟨run_of_step_self (step_of_no_firstEnabled low agenda rest), noFault, fun ⟨_, _, _, freeF, _⟩ => ?_, notReady⟩
  simp [busy] at freeF

/-! ### The default order: every run comes to rest -/

/-- The work still to do, weighed so that every enabled step lessens it: a record queued counts one, a job counts two in the S
slot and three in the F slot, a word offered counts four and a beat offered one. -/
def pendingWork (s : State) : Nat :=
  s.oq.length + 2 * s.sSlot.busy.toNat + 3 * s.fSlot.busy.toNat + 4 * s.cmd.length + s.beats.length

theorem pendingWork_acceptCmd_lt (on : enabled s .acceptCmd = true) (h : engineStep .acceptCmd s = .next t) :
    pendingWork t < pendingWork s := by
  obtain ⟨ready, valid⟩ : s.cmdReady = true ∧ s.cmdValid = true := by simpa [enabled] using on
  obtain ⟨-, -, free⟩ := cmdReady_iff.mp ready
  cases offered : s.cmd with
  | nil => simp [State.cmdValid, offered] at valid
  | cons c rest =>
    cases reads : decode c with
    | command i =>
      rw [engineStep_acceptCmd_of_ready ready offered reads] at h
      cases h
      simp +arith [pendingWork, offered, free]
    | illegal =>
      rw [engineStep_acceptCmd_of_illegal ready offered reads] at h
      cases h
      simp [pendingWork, offered]

theorem pendingWork_acceptBeat_lt (on : enabled s .acceptBeat = true) (h : engineStep .acceptBeat s = .next t) :
    pendingWork t < pendingWork s := by
  obtain ⟨ready, valid⟩ : s.inReady = true ∧ s.inValid = true := by simpa [enabled] using on
  obtain ⟨-, -, busy, op, opcode, -⟩ := inReady_iff.mp ready
  cases offered : s.beats with
  | nil => simp [State.inValid, offered] at valid
  | cons b rest =>
    cases last : framed op s.fSlot.cnt.toNat b.last with
    | true =>
      rw [engineStep_acceptBeat_of_framed ready offered opcode last] at h
      cases h
      simp [pendingWork, offered]
    | false =>
      rw [engineStep_acceptBeat_of_misframed ready offered opcode last] at h
      cases h
      simp +arith [pendingWork, misframed, offered, busy]

theorem pendingWork_advance_lt (on : enabled s .advance = true) (h : engineStep .advance s = .next t) :
    pendingWork t < pendingWork s := by
  obtain ⟨-, busy, -, free⟩ := canAdvance_iff.mp on
  rw [engineStep_advance_of_canAdvance on] at h
  cases h
  simp [pendingWork, busy, free]

theorem pendingWork_retire_lt (inv : EngineInv s) (on : enabled s .retire = true)
    (h : engineStep .retire s = .next t) : pendingWork t < pendingWork s := by
  obtain ⟨-, busy, -⟩ := canRetire_iff.mp on
  obtain ⟨op, opcode⟩ := Option.isSome_iff_exists.mp (inv.sSlot busy)
  rw [engineStep_retire_of_canRetire on opcode] at h
  cases h
  simp [pendingWork, retired, busy]

theorem pendingWork_deliver_lt (on : enabled s .deliver = true) (h : engineStep .deliver s = .next t) :
    pendingWork t < pendingWork s := by
  obtain ⟨valid, hostReady⟩ : s.outValid = true ∧ s.outReady = true := by simpa [enabled] using on
  obtain ⟨low, some⟩ := outValid_iff.mp valid
  obtain ⟨r, rest, head⟩ := List.exists_cons_of_ne_nil some
  rw [engineStep_deliver_of_head low head hostReady] at h
  cases h
  simp [pendingWork, head]

/-- Every enabled step lessens the work still to do. -/
theorem pendingWork_lt_of_enabled {e : EngineStep} (inv : EngineInv s) (on : enabled s e = true)
    (h : engineStep e s = .next t) : pendingWork t < pendingWork s := by
  cases e with
  | acceptCmd => exact pendingWork_acceptCmd_lt on h
  | acceptBeat => exact pendingWork_acceptBeat_lt on h
  | advance => exact pendingWork_advance_lt on h
  | retire => exact pendingWork_retire_lt inv on h
  | deliver => exact pendingWork_deliver_lt on h

theorem Taken.outReady_eq (taken : Taken s t) : t.outReady = s.outReady := by
  cases taken <;> rfl

/-- A machine left to its default order, whose host takes records. -/
structure Unattended (s : State) : Prop where
  inv : EngineInv s
  low : s.rst = false
  agenda : s.agenda = []
  hostReady : s.outReady = true

/-- An enabled step of an unattended machine leaves it unattended, with the same records promised and less to do. -/
theorem Unattended.step {e : EngineStep} (h : Unattended s) (first : firstEnabled s = some e) :
    ∃ t, step s = .next t ∧ Unattended t ∧ promised t = promised s ∧ pendingWork t < pendingWork s := by
  obtain ⟨t, taken⟩ := engineStep_goes_on (e := e) h.inv.sSlot
  have hs : Machine.step s = .next t := (step_of_firstEnabled h.low h.agenda first).trans taken
  have moved := engineStep_taken h.low taken
  refine ⟨t, hs, ⟨moved.keepsInv h.inv, moved.rst_eq.trans h.low, moved.agenda_eq.trans h.agenda,
    moved.outReady_eq.trans h.hostReady⟩, moved.promised_eq h.inv, ?_⟩
  exact pendingWork_lt_of_enabled h.inv (List.find?_some first) taken

/-- An unattended machine comes to rest, by induction on the work still to do. -/
theorem Unattended.exists_run_to_rest (h : Unattended s) :
    ∃ n t, run n s = .next t ∧ Unattended t ∧ promised t = promised s ∧ firstEnabled t = none := by
  induction work : pendingWork s using Nat.strong_induction_on generalizing s with
  | _ work' ih =>
    subst work
    cases first : firstEnabled s with
    | none => exact ⟨0, s, rfl, h, rfl, first⟩
    | some e =>
      obtain ⟨s', hs, h', promise, less⟩ := h.step first
      obtain ⟨n, t, hrun, ht, promise', rest⟩ := ih _ less h' rfl
      exact ⟨n + 1, t, (run_succ hs).trans hrun, ht, promise'.trans promise, rest⟩

/-- At rest with a host that takes records, the queue and the S slot are empty. -/
theorem Unattended.drained_of_rest (h : Unattended s) (rest : ∀ e, enabled s e = false) :
    s.oq = [] ∧ s.sSlot.busy = false := by
  have queue : s.oq = [] := by simpa [enabled, State.outValid, h.low, h.hostReady] using rest .deliver
  have depth : 1 ≤ s.cfg.outDepth := by simpa [Config.wf] using h.inv.depth
  refine ⟨queue, ?_⟩
  by_contra busy
  have can : s.canRetire = true := canRetire_iff.mpr ⟨h.low, by simpa using busy, by rw [queue]; exact depth⟩
  have off : s.canRetire = false := rest .retire
  simp [can] at off

/-- At rest nothing is owed for what the host offers: a job in the F slot lacks a beat that is not offered, and with no job
there no word is offered. -/
theorem owedByIntake_of_rest (inv : EngineInv s) (low : s.rst = false) (freeS : s.sSlot.busy = false)
    (rest : ∀ e, enabled s e = false) : owedByIntake s = [] := by
  cases noFault : s.fault with
  | true => exact owedByIntake_fault noFault
  | false =>
    cases busy : s.fSlot.busy with
    | false =>
      have ready : s.cmdReady = true := cmdReady_iff.mpr ⟨low, noFault, busy⟩
      have noWord : s.cmd = [] := by simpa [enabled, State.cmdValid, ready] using rest .acceptCmd
      rw [owedByIntake_free noFault busy, noWord, expected]
    | true =>
      obtain ⟨op, opcode, count, -⟩ := inv.fSlot busy
      have incomplete : s.fSlot.cnt.toNat ≠ beatsOf op := fun complete => by
        have can : s.canAdvance = true := canAdvance_iff.mpr ⟨low, busy, ⟨op, opcode, complete⟩, freeS⟩
        have off : s.canAdvance = false := rest .advance
        simp [can] at off
      have ready : s.inReady = true :=
        inReady_iff.mpr ⟨low, noFault, busy, op, opcode, Nat.lt_of_le_of_ne count incomplete⟩
      have noBeat : s.beats = [] := by simpa [enabled, State.inValid, ready] using rest .acceptBeat
      rw [owedByIntake_busy noFault busy opcode, noBeat, gather, if_neg incomplete, owedForJob]

/-- Settles O33: the machine comes to rest with its promise kept, and at rest the promise is what the host has taken. -/
theorem everyPromisedRecordIsDelivered : Obligations.EveryPromisedRecordIsDelivered := by
  intro s inv low agenda hostReady
  obtain ⟨n, t, hrun, ht, promise, atRest⟩ := Unattended.exists_run_to_rest ⟨inv, low, agenda, hostReady⟩
  have rest := firstEnabled_eq_none_iff.mp atRest
  obtain ⟨queue, freeS⟩ := ht.drained_of_rest rest
  refine ⟨n, t, hrun, ?_, queue, freeS, atRest⟩
  rw [← promise, promised, queue, owedByS_free freeS, owedByIntake_of_rest ht.inv ht.low freeS rest]
  simp

/-! ### The digest commands run through -/

/-- A command over a block run through on an idle engine: it accepts, folds the block's beats and queues its record. -/
theorem exec_run_blockJob {i : Instr} (count : beatsOf i.op = 64) (block : Block) {cs : List Word} {bs : List Beat}
    {ms : List Move} (low : s.rst = false) (noFault : s.fault = false) (freeF : s.fSlot.busy = false)
    (freeS : s.sSlot.busy = false) (room : s.oq.length < s.cfg.outDepth) (offered : s.cmd = encode i :: cs)
    (beats : s.beats = blockBeats block ++ bs) (agenda : s.agenda = jobMoves 64 ++ ms) :
    ∃ t, exec i s = .next t ∧ run 66 t = .next (jobDone s i (foldBlock block) cs bs ms) := by
  have gathers : gather i.op 0 (zeroBytes 64) s.beats = some (foldBlock block, bs) :=
    beats ▸ gather_blockBeats count block bs
  have job := exec_run_job low noFault freeF freeS room offered gathers (count ▸ agenda)
  rwa [count] at job

/-- Settles O40: a whole job over a block, whose record is the digest of the block. -/
theorem hash256GivesTheDigest : Obligations.Hash256GivesTheDigest := by
  intro s tag block cs bs ms low noFault freeF freeS room offered beats agenda
  obtain ⟨t, accepted, queued⟩ :=
    exec_run_blockJob (i := .hash256 tag) rfl block low noFault freeF freeS room offered beats agenda
  exact ⟨t, _, accepted, queued⟩

/-- Settles O41: a whole job over a block, whose record is the first 16 bytes of the digest of the block. -/
theorem hash128GivesTheTruncatedDigest : Obligations.Hash128GivesTheTruncatedDigest := by
  intro s tag block cs bs ms low noFault freeF freeS room offered beats agenda
  obtain ⟨t, accepted, queued⟩ :=
    exec_run_blockJob (i := .hash128 tag) rfl block low noFault freeF freeS room offered beats agenda
  exact ⟨t, _, accepted, queued⟩

/-- Bytes cut from the beginning of a string are the string's own. -/
theorem byteAt_bytesOf_zero {n m i : Nat} (x : Bytes n) (h : i < m) : byteAt (bytesOf x 0 m) i = byteAt x i := by
  simp [byteAt_bytesOf, h]

/-- Settles O54: both results are the same string, one cut to 16 bytes, each followed by zeros. -/
theorem truncationLaw : Obligations.TruncationLaw := by
  refine ⟨fun pad blk i => ⟨fun first => ?_, fun after => byteAt_padTo64_of_le _ after⟩,
    fun pad block i first => byteAt_bytesOf_zero _ first⟩
  simp only [result, resultHash128, resultHash256, byteAt_padTo64, byteAt_bytesOf_zero _ first]

/-! ### The partition of a batch -/

theorem hashIndices_cons (bits : DigestBits) (blocks : List Block) (i : Nat) (indices : List Nat) :
    hashIndices bits blocks (i :: indices) =
      .command (hashOp bits) (i % 65536) :: .block (blocks.getD i Generator.zero.block) ::
        hashIndices bits blocks indices := rfl

/-- An engine owes the records of its indices, in the order given, by induction on them (rule R112). -/
theorem expected_hashIndices (bits : DigestBits) (pad : PadMode) (blocks : List Block) (indices : List Nat) :
    expected pad (scriptWords (hashIndices bits blocks indices)) (scriptBeats (hashIndices bits blocks indices)) =
      indexRecords bits pad blocks indices := by
  induction indices with
  | nil => rfl
  | cons i indices ih =>
    rw [indexRecords, List.map_cons, ← indexRecords, ← ih, ← expected_digestJob, hashIndices_cons]
    rfl

/-- The records of a whole batch are those of all its indices in rising order. -/
theorem indexRecords_range (bits : DigestBits) (pad : PadMode) (blocks : List Block) :
    indexRecords bits pad blocks (List.range blocks.length) = batchRecords bits pad 0 blocks := by
  refine List.ext_getElem (by simp [indexRecords, batchRecords]) fun i _ h => ?_
  have inside : i < blocks.length := by simpa [batchRecords] using h
  simp [indexRecords, batchRecords, inside]

/-- Settles O37: each engine owes its own indices' records, and the indices of all engines are those of the batch. -/
theorem anyPartitionGivesEachDigest : Obligations.AnyPartitionGivesEachDigest := by
  intro bits pad blocks parts perm
  refine ⟨fun part _ => expected_hashIndices bits pad blocks part, ?_⟩
  have all : (parts.flatMap fun part => expected pad (scriptWords (hashIndices bits blocks part))
      (scriptBeats (hashIndices bits blocks part))) = indexRecords bits pad blocks parts.flatten := by
    simp only [expected_hashIndices, indexRecords, List.map_flatten, List.flatMap_def]
  rw [all, ← indexRecords_range]
  exact perm.map _

/-- An index of the batch is in the range of the worker whose number is its quotient by the chunk size (rule R111). -/
theorem mem_workerRange_iff {m i w : Nat} {workers : Int} (inside : i < m) :
    (workerRange m workers w).1 ≤ i ∧ i < (workerRange m workers w).2 ↔ i / chunkSize m workers = w := by
  have chunk : 0 < chunkSize m workers := by
    refine Nat.pos_of_ne_zero fun zero => ?_
    have := le_effectiveWorkers_mul_chunkSize m workers
    rw [zero] at this
    omega
  rw [Nat.div_eq_iff chunk]
  simp only [workerRange, min_le_iff, lt_min_iff, Nat.add_mul]
  omega

/-- No worker has more than one chunk. -/
theorem workerRange_length_le (m : Nat) (workers : Int) (w : Nat) :
    (workerRange m workers w).2 - (workerRange m workers w).1 ≤ chunkSize m workers := by
  simp only [workerRange, Nat.add_mul]
  omega

/-- Settles O38: the quotient by the chunk size names the one worker. -/
theorem partitionGivesEachIndexOnce : Obligations.PartitionGivesEachIndexOnce := by
  intro m workers
  refine ⟨fun i inside => ⟨i / chunkSize m workers, ?_, ?_⟩,
    fun w => ⟨min_le_right _ _, workerRange_length_le m workers w⟩, fun none => ?_⟩
  · exact Nat.div_lt_of_lt_mul (inside.trans_le (Nat.mul_comm .. ▸ le_effectiveWorkers_mul_chunkSize m workers))
  · obtain ⟨first, last⟩ := (mem_workerRange_iff (workers := workers) inside).mpr rfl
    exact ⟨first, last, fun v _ first last => ((mem_workerRange_iff inside).mp ⟨first, last⟩).symm⟩
  · have one : effectiveWorkers workers = 1 := if_pos none
    simp [one, workerRange, chunkSize]

/-! ### Engines side by side -/

/-- Settles O39, by induction on the schedule: a move of the cluster is a step of the engine it names and of no other. -/
theorem enginesDoNotInteract : Obligations.EnginesDoNotInteract := by
  intro engines after schedule w s hw hrun
  induction schedule generalizing engines s with
  | nil => cases hrun; exact ⟨s, hw, rfl⟩
  | cons v schedule ih =>
    obtain ⟨mid, first, rest⟩ := clusterRun_cons hrun
    obtain ⟨absent, rfl⟩ | ⟨s', t, hs', ht, rfl⟩ := clusterStep_cases first
    · have other : v ≠ w := fun same => by simp [← same, absent] at hw
      rw [List.count_cons_of_ne other]
      exact ih mid s hw rest
    · by_cases same : v = w
      · subst same
        obtain rfl : s = s' := Option.some.inj (hw.symm.trans hs')
        obtain ⟨inside, -⟩ := List.getElem?_eq_some_iff.mp hw
        obtain ⟨u, hu, runs⟩ := ih (engines.set v t) t (List.getElem?_set_self inside) rest
        exact ⟨u, hu, by rw [List.count_cons_self, run_succ ht, runs]⟩
      · rw [List.count_cons_of_ne same]
        exact ih (engines.set v t) s (by rw [List.getElem?_set_ne same, hw]) rest

/-- An idle engine has delivered the first of the records promised, so all of them once it has delivered as many. -/
theorem delivered_of_idle (idle : s.busy = false) {records : List Record} (promise : promised s = records)
    (count : s.delivered.length = records.length) : s.delivered = records := by
  obtain ⟨-, freeS, queue⟩ := not_busy_iff.mp idle
  have parts : s.delivered ++ owedByIntake s = records := by
    simpa [promised, queue, owedByS_free freeS] using promise
  exact List.IsPrefix.eq_of_length ⟨_, parts⟩ count

/-- Settles O56: each engine runs alone and keeps its promise, which at the start is its indices' records and at the
join is what it has delivered. -/
theorem joinGivesEveryDigest : Obligations.JoinGivesEveryDigest := by
  intro bits blocks parts engines after schedule start hrun join w s t part hw hw' hpart
  obtain ⟨inv, low, noFault, idle, fresh, cmd, beats, held⟩ := start w s part hw hpart
  obtain ⟨u, hu, runs⟩ := enginesDoNotInteract engines after schedule w s hw hrun
  obtain rfl : u = t := Option.some.inj (hu.symm.trans hw')
  have kept : HeldRun s u := run_keeps (fun _ _ => HeldRun.step) (HeldRun.refl inv low held) runs
  obtain ⟨idleAtEnd, count⟩ := (joined_iff.mp join).2 w u part.length hw' (by simp [hpart])
  refine delivered_of_idle idleAtEnd ?_ (by simpa [indexRecords] using count)
  rw [kept.promise, promised_of_idle idle noFault, fresh, cmd, beats, expected_hashIndices, List.nil_append]

end Sys2Proof.Machine

/-! # The two faults, and what follows one

The causes of spec/60_exceptions.md and how each is raised (rules R122, R123), and the two input streams after a fault
(rules R125, R126). -/

namespace Sys2Proof.Machine

variable {s t : State}

/-! ### Raising a fault -/

/-- Settles O11: the four words fail the check on the opcode or on the reserved bits, and the move is the transfer of a word
that is not legal. -/
theorem illegalWordRaisesIllcmd : Obligations.IllegalWordRaisesIllcmd := by
  refine ⟨by decide, fun s c cs ms low noFault free agenda offered notLegal => ?_⟩
  obtain ⟨-, illegal, -⟩ := acceptCmdStep { s with agenda := ms } c cs low offered
  exact (step_of_agenda agenda).trans (illegal noFault free notLegal)

/-- The two ways to a FRAME fault are beats the job still misses, and in neither is the flag that of the beat's place. -/
theorem missing_and_not_framed {op : Op} {n : Nat} {last : Bool}
    (wrong : (last = true ∧ n < beatsOf op - 1) ∨ (last = false ∧ n = beatsOf op - 1)) :
    n < beatsOf op ∧ ¬(last = true ↔ n = beatsOf op - 1) := by
  have := beatsOf_pos op
  obtain ⟨rfl, early⟩ | ⟨rfl, final⟩ := wrong
  · exact ⟨by omega, fun framed => early.ne (framed.mp rfl)⟩
  · exact ⟨by omega, fun framed => Bool.false_ne_true (framed.mpr final)⟩

/-- Settles O13: either way the flag is not that of the beat's place. The one beat of an `SM3CF` job is its last, so no flag
comes before it. -/
theorem misframedBeatRaisesFrame : Obligations.MisframedBeatRaisesFrame := by
  intro s b bs ms op low noFault busy code offered agenda wrong
  obtain ⟨missing, notFramed⟩ := missing_and_not_framed wrong
  obtain ⟨-, frame, -⟩ := acceptBeatStep { s with agenda := ms } b bs op low offered code
  refine ⟨(step_of_agenda agenda).trans (frame noFault busy missing notFramed), ?_⟩
  rintro rfl
  obtain ⟨-, early⟩ | ⟨noLast, first⟩ := wrong
  · exact absurd early (Nat.not_lt_zero _)
  · exact ⟨noLast, BitVec.eq_of_toNat_eq first⟩

/-! ### After a fault -/

theorem cmdReady_of_fault (fault : s.fault = true) : s.cmdReady = false :=
  cmdReady_eq_false_iff.mpr (.inr (.inl fault))

theorem inReady_of_fault (fault : s.fault = true) : s.inReady = false := by
  simp [State.inReady, fault]

/-- With both inputs closed a step leaves what the host offers, and at most frees the F slot. -/
theorem Taken.keepsInputs (taken : Taken s t) (fault : s.fault = true) :
    t.cmd = s.cmd ∧ t.beats = s.beats ∧ (t.fSlot.busy = true → t.fSlot = s.fSlot) := by
  cases taken with
  | command _ ready _ | illegal _ ready _ => simp [cmdReady_of_fault fault] at ready
  | beat _ ready _ _ | frame _ ready _ _ => simp [inReady_of_fault fault] at ready
  | advance _ => exact ⟨rfl, rfl, fun busy => by simp at busy⟩
  | nothing | retire | deliver => exact ⟨rfl, rfl, fun _ => rfl⟩

/-- Settles O22: a fault closes both inputs, and no step but reset clears it. -/
theorem afterAFaultNothingIsTaken : Obligations.AfterAFaultNothingIsTaken := by
  intro s t e low fault h
  have taken := engineStep_taken low h
  obtain ⟨faultAfter, -, -⟩ := taken.keepsFault fault
  exact ⟨cmdReady_of_fault fault, inReady_of_fault fault, cmdReady_of_fault faultAfter, inReady_of_fault faultAfter,
    taken.keepsInputs fault⟩

end Sys2Proof.Machine

/-! # Reset

Step `Reset` (rules R104, R136), and what an idle engine without a fault can do, which is what reset leaves (rule R138). -/

namespace Sys2Proof.Machine

variable {s : State} {e : EngineStep}

/-! ### While `rst` is 1 -/

/-- While `rst` is 1 no transfer is offered on any of the three streams (rule R136). -/
theorem noTransfer_of_rst (high : s.rst = true) : s.cmdReady = false ∧ s.inReady = false ∧ s.outValid = false :=
  ⟨cmdReady_eq_false_iff.mpr (.inl high), by simp [State.inReady, high], by simp [State.outValid, high]⟩

theorem status_resetEngine (s : State) : s.resetEngine.status = 0x00#8 := by
  simp [State.status, State.busy, FSlot.reset, SSlot.reset]

/-- Settles O17: whatever step is asked for, the step is `Reset`, and `Reset` writes the engine's own fields only. -/
theorem resetStep : Obligations.ResetStep := fun s _ high =>
  ⟨noTransfer_of_rst high, s.resetEngine, engineStep_of_rst high, rfl, rfl, rfl, rfl, rfl, rfl, status_resetEngine s,
    rfl, rfl, rfl, rfl, rfl, rfl, rfl⟩

/-! ### An idle engine without a fault -/

/-- With `rst` low an idle engine without a fault is ready for a command, and neither takes a beat nor offers a record. -/
theorem onlyCmdReady_of_idle (low : s.rst = false) (noFault : s.fault = false) (idle : s.busy = false) :
    s.cmdReady = true ∧ s.inReady = false ∧ s.outValid = false := by
  obtain ⟨freeF, -, queue⟩ := not_busy_iff.mp idle
  exact ⟨by simp [State.cmdReady, low, noFault, freeF], by simp [State.inReady, freeF], by simp [State.outValid, queue]⟩

/-- An idle engine has no job to go on with and no record to hand out: only a command's transfer can be taken. -/
theorem eq_acceptCmd_of_idle (idle : s.busy = false) (on : enabled s e = true) : e = .acceptCmd := by
  obtain ⟨freeF, freeS, queue⟩ := not_busy_iff.mp idle
  cases e with
  | acceptCmd => rfl
  | acceptBeat => simp [enabled, State.inReady, freeF] at on
  | advance => simp [enabled, State.canAdvance, freeF] at on
  | retire => simp [enabled, State.canRetire, freeS] at on
  | deliver => simp [enabled, State.outValid, queue] at on

/-- Settles O18: reset leaves the engine idle and without a fault, and neither `rst` nor what the host offers changes that. -/
theorem afterResetOnlyACommandIsTaken : Obligations.AfterResetOnlyACommandIsTaken := by
  refine ⟨⟨rfl, rfl, onlyCmdReady_of_idle rfl rfl rfl⟩, fun _ _ _ _ on => eq_acceptCmd_of_idle rfl on,
    fun s t e high h => ?_⟩
  obtain rfl : s.resetEngine = t := by simpa [engineStep_of_rst high] using h
  have ⟨cmd, beat, record⟩ := onlyCmdReady_of_idle (s := { s.resetEngine with rst := false }) rfl rfl rfl
  exact ⟨status_resetEngine s, rfl, cmd, beat, record, fun _ on => eq_acceptCmd_of_idle rfl on⟩

end Sys2Proof.Machine
